-- ==== Sys2Proof/Word.lean ====
section
/-! DEFINITION. The widths of the machine's values (00_scope.md rules R5, R10, R11). -/

namespace Sys2Proof

/-- A register, a memory word, an address or an instruction word: 16 bits (R5, R11). -/
abbrev Word := BitVec 16

/-- One byte of the image, of the input or of the output (00_scope.md R7). -/
abbrev Byte := BitVec 8

/-- A register field: "always a 3-bit value mapped to one of R0..R7" (30_encoding.md R85). -/
abbrev Reg := BitVec 3

end Sys2Proof
end

