-- ==== Sys2Proof/Config.lean ====
section
/-! DEFINITION. What an implementation fixes: the parameters of 00_scope.md rule R6, the byte strings the spec
calls opaque constants, and the free answers of the host (93_implementation_defined.md U5, U9). -/

namespace Sys2Proof

/-- The two readings of `KBSR_READY_WORD` (92_eei_decisions.md D3). Both set bit 15. -/
inductive ReadyWord where
  /-- The word becomes 0x8000, bits 14..0 cleared: the default. -/
  | cleared
  /-- The alternative the spec names: `old OR 0x8000`. -/
  | keepsOld
deriving DecidableEq, Repr, Inhabited

/-- The parameters "a model takes as a configuration argument" (00_scope.md R6). No instruction changes them.
DESIGN CHOICE, log 3: they stand in the state, so that a statement about every state is about every parameter value. -/
structure Config where
  /-- `KBSR_READY_WORD` (92 D3). -/
  kbsrReadyWord : ReadyWord
  /-- `LINK_SETS_COND` (92 D6). -/
  linkSetsCond : Bool
  /-- `JSRR_READS_BASE_FIRST` (92 D7). -/
  jsrrReadsBaseFirst : Bool
  /-- `CANONICAL_ONLY` (92 D8). -/
  canonicalOnly : Bool
deriving DecidableEq, Repr, Inhabited

/-- The host's answer to a write at the output port (00_scope.md R7(c)). -/
inductive PortAnswer where
  | ok
  | fail
deriving DecidableEq, Repr, Inhabited

/-- Which notice `OutputNotice` writes (00_scope.md R7(c)). -/
inductive NoticeKind where
  /-- The IN prompt (43_trap.md R185). -/
  | inPrompt
  /-- The halt notice (43_trap.md R187). -/
  | haltNotice
deriving DecidableEq, Repr, Inhabited

/-- An answer to `InputRead` (00_scope.md R7(b)): a byte, or `Fail` at the end of the stream or on a read failure. -/
inductive ReadAnswer where
  | byte (b : Byte)
  | fail
deriving DecidableEq, Repr, Inhabited

/-- `IN_PROMPT`: a fixed byte string the spec leaves open (92 D11). A free value, log 9. -/
opaque Config.inPrompt : List Byte

/-- `HALT_NOTICE`: a fixed byte string the spec leaves open (92 D11). A free value, log 9. -/
opaque Config.haltNotice : List Byte

/-- The `n`-th free answer to `InputPoll` while an input byte is pending (93 U9). A free value, log 8. -/
opaque Config.freePoll : Nat → Bool

/-- The `n`-th free answer to `InputRead`: a byte, `Fail`, or nothing for ever (60_exceptions.md R236, 93 U7, U10). A
free value, log 8. -/
opaque Config.freeRead : Nat → Option ReadAnswer

/-- The `n`-th free answer to a write at the output port (93 U5). A free value, log 8. -/
opaque Config.freeWrite : Nat → PortAnswer

end Sys2Proof
end

