-- ==== Sys2Proof/Syntax.lean ====
section
/-! DEFINITION. The instruction set: one constructor per row of spec/opcode_table.json (30_encoding.md rules R82, R90).
A field holds the instruction's raw bits; it is extended where it is used (rule R84). -/

namespace Sys2Proof

/-- The instructions of the opcode map (30_encoding.md R90, R91). Ignored bits (R88) are no operands. -/
inductive Instr where
  /-- ADD, register form (40_operate.md R110). -/
  | addReg (dr sr1 sr2 : Reg)
  /-- ADD, immediate form (R111). -/
  | addImm (dr sr1 : Reg) (imm5 : BitVec 5)
  /-- AND, register form (R113). -/
  | andReg (dr sr1 sr2 : Reg)
  /-- AND, immediate form (R114). -/
  | andImm (dr sr1 : Reg) (imm5 : BitVec 5)
  /-- NOT (R116). -/
  | not (dr sr : Reg)
  /-- LD (41_load_store.md R130). -/
  | ld (dr : Reg) (off9 : BitVec 9)
  /-- LDI (R132). -/
  | ldi (dr : Reg) (off9 : BitVec 9)
  /-- LDR (R134). -/
  | ldr (dr baser : Reg) (off6 : BitVec 6)
  /-- LEA (R136). -/
  | lea (dr : Reg) (off9 : BitVec 9)
  /-- ST (R138). -/
  | st (sr : Reg) (off9 : BitVec 9)
  /-- STI (R140). -/
  | sti (sr : Reg) (off9 : BitVec 9)
  /-- STR (R142). -/
  | str (sr baser : Reg) (off6 : BitVec 6)
  /-- BR (42_control.md R161); `n`, `z`, `p` are the instruction's bits 11, 10, 9. -/
  | br (n z p : Bool) (off9 : BitVec 9)
  /-- JMP through a register other than R7 (R163). -/
  | jmp (baser : Reg)
  /-- RET, the name of JMP through R7 (R163). DESIGN CHOICE, log 2: the table's row has a constructor of its own. -/
  | ret
  /-- JSR (R166). -/
  | jsr (off11 : BitVec 11)
  /-- JSRR (R167). -/
  | jsrr (baser : Reg)
  /-- TRAP (43_trap.md R181). -/
  | trap (vect : BitVec 8)
  /-- RTI, unsupported (44_unsupported.md R210). -/
  | rti
  /-- RES, unsupported (R211). -/
  | res
deriving DecidableEq, Repr

end Sys2Proof
end

