-- ==== Sys2Proof/WellFormed.lean ====
section
/-! DEFINITION. Which terms of `Instr` are instructions. Every field has exactly the width of its bits, so one check
remains: JMP through R7 is the table's row RET (30_encoding.md rule R90), and is written `ret`. -/

namespace Sys2Proof

/-- The term is the instruction its own word decodes to (log 2): `jmp` names every base register but R7. -/
def Instr.wellFormed : Instr → Bool
  | .jmp baser => baser != 7#3
  | .addReg _ _ _ | .addImm _ _ _ | .andReg _ _ _ | .andImm _ _ _ | .not _ _ => true
  | .ld _ _ | .ldi _ _ | .ldr _ _ _ | .lea _ _ | .st _ _ | .sti _ _ | .str _ _ _ => true
  | .br _ _ _ _ | .ret | .jsr _ | .jsrr _ | .trap _ | .rti | .res => true

end Sys2Proof
end

