-- ==== Sys2Proof/Decode.lean ====
section
/-! DEFINITION. The decoder of 30_encoding.md rule R91, total on every word; the canonical values of ignored bits
(rule R88); the encoder; and the opcode map (rule R90) as masks and patterns.
The opcode numbers other than TRAP's, and the field positions the spec supplies from general knowledge (rules R82,
R83, decision D9), are the spec's own choice: PRESUMED, log 4. -/

namespace Sys2Proof

/-! ## Fields of an instruction word (R82) -/

/-- `inst[15:12]` (R81). -/
def opcodeField (w : Word) : BitVec 4 := w.extractLsb' 12 4

/-- `inst[11:9]`: DR, or the source register of a store (R82). -/
def drField (w : Word) : Reg := w.extractLsb' 9 3

/-- `inst[8:6]`: SR1, SR or BaseR (R82). -/
def baseField (w : Word) : Reg := w.extractLsb' 6 3

/-- `inst[2:0]`: SR2 (R82). -/
def sr2Field (w : Word) : Reg := w.extractLsb' 0 3

/-- `inst[4:0]`: imm5 (R84). -/
def imm5Field (w : Word) : BitVec 5 := w.extractLsb' 0 5

/-- `inst[5:0]`: offset6 (R84). -/
def off6Field (w : Word) : BitVec 6 := w.extractLsb' 0 6

/-- `inst[8:0]`: PCoffset9 (R84). -/
def off9Field (w : Word) : BitVec 9 := w.extractLsb' 0 9

/-- `inst[10:0]`: PCoffset11 (R84). -/
def off11Field (w : Word) : BitVec 11 := w.extractLsb' 0 11

/-- `inst[7:0]`: trapvect8 (R84). -/
def vectField (w : Word) : BitVec 8 := w.extractLsb' 0 8

/-- The mode bit of ADD and AND, `inst[5]`: set for the immediate form (R86). -/
def immMode (w : Word) : Bool := w.getLsbD 5

/-- The mode bit of JSR, `inst[11]`: set for the PC-relative form (R86). -/
def jsrMode (w : Word) : Bool := w.getLsbD 11

/-! ## The decoder -/

/-- The decode function of R91. All 16 opcodes are valid decodes (R81), so it has no rejection; the last arm is
opcode 0xF, the only four-bit number the others leave. -/
def decode (w : Word) : Instr :=
  match (opcodeField w).toNat with
  | 0x0 => .br (w.getLsbD 11) (w.getLsbD 10) (w.getLsbD 9) (off9Field w)
  | 0x1 => if immMode w then .addImm (drField w) (baseField w) (imm5Field w)
           else .addReg (drField w) (baseField w) (sr2Field w)
  | 0x2 => .ld (drField w) (off9Field w)
  | 0x3 => .st (drField w) (off9Field w)
  | 0x4 => if jsrMode w then .jsr (off11Field w) else .jsrr (baseField w)
  | 0x5 => if immMode w then .andImm (drField w) (baseField w) (imm5Field w)
           else .andReg (drField w) (baseField w) (sr2Field w)
  | 0x6 => .ldr (drField w) (baseField w) (off6Field w)
  | 0x7 => .str (drField w) (baseField w) (off6Field w)
  | 0x8 => .rti
  | 0x9 => .not (drField w) (baseField w)
  | 0xA => .ldi (drField w) (off9Field w)
  | 0xB => .sti (drField w) (off9Field w)
  | 0xC => if baseField w = 7#3 then .ret else .jmp (baseField w)
  | 0xD => .res
  | 0xE => .lea (drField w) (off9Field w)
  | _ => .trap (vectField w)

/-- Every bit the word's instruction ignores has its canonical value: 0, and for NOT `inst[5:0]` = 0b111111 (R88). -/
def canonical (w : Word) : Bool :=
  match (opcodeField w).toNat with
  | 0x1 | 0x5 => immMode w || w.extractLsb' 3 2 == 0#2
  | 0x4 => jsrMode w || (w.extractLsb' 9 2 == 0#2 && w.extractLsb' 0 6 == 0#6)
  | 0x8 | 0xD => w.extractLsb' 0 12 == 0#12
  | 0x9 => w.extractLsb' 0 6 == 0x3F#6
  | 0xC => w.extractLsb' 9 3 == 0#3 && w.extractLsb' 0 6 == 0#6
  | 0xF => w.extractLsb' 8 4 == 0#4
  | _ => true

/-- What the decoder answers. -/
inductive Decoded where
  /-- The word's instruction. -/
  | instr (i : Instr)
  /-- The word is refused: `CANONICAL_ONLY` is true and an ignored bit is not canonical (R88, D8). -/
  | nonCanonical (w : Word)
deriving DecidableEq, Repr

/-- Decoding under the parameter `CANONICAL_ONLY` (R88). With false, the default, it never refuses. -/
def decodeWith (canonicalOnly : Bool) (w : Word) : Decoded :=
  if canonicalOnly && !canonical w then .nonCanonical w else .instr (decode w)

/-! ## The encoder -/

/-- The formats of R82 whose fields are the opcode, two register fields and a six-bit tail: OPR, OPI, NOT, BASE6, JMP,
JSRR. -/
def formatBase6 (op : BitVec 4) (r b : Reg) (tail : BitVec 6) : Word := op ++ r ++ b ++ tail

/-- The formats of R82 whose fields are the opcode, three bits and PCoffset9: PC9, and BR with `n`, `z`, `p`. -/
def formatPc9 (op : BitVec 4) (r : BitVec 3) (off9 : BitVec 9) : Word := op ++ r ++ off9

/-- The formats of R82 with twelve bits under the opcode: JSR, TRAP, NONE. -/
def formatLow12 (op : BitVec 4) (low : BitVec 12) : Word := op ++ low

/-- The tail of OPR: mode bit 0, two ignored bits, SR2 (R82). -/
def tailReg (sr2 : Reg) : BitVec 6 := 0#1 ++ 0#2 ++ sr2

/-- The tail of OPI: mode bit 1, imm5 (R82). -/
def tailImm (imm5 : BitVec 5) : BitVec 6 := 1#1 ++ imm5

/-- The word of an instruction, written from the formats of R82 and the opcode map of R90, with every ignored bit at
its canonical value (R88). -/
def encode : Instr → Word
  | .addReg dr sr1 sr2 => formatBase6 0x1#4 dr sr1 (tailReg sr2)
  | .addImm dr sr1 imm5 => formatBase6 0x1#4 dr sr1 (tailImm imm5)
  | .andReg dr sr1 sr2 => formatBase6 0x5#4 dr sr1 (tailReg sr2)
  | .andImm dr sr1 imm5 => formatBase6 0x5#4 dr sr1 (tailImm imm5)
  | .not dr sr => formatBase6 0x9#4 dr sr 0x3F#6
  | .ld dr off9 => formatPc9 0x2#4 dr off9
  | .ldi dr off9 => formatPc9 0xA#4 dr off9
  | .ldr dr baser off6 => formatBase6 0x6#4 dr baser off6
  | .lea dr off9 => formatPc9 0xE#4 dr off9
  | .st sr off9 => formatPc9 0x3#4 sr off9
  | .sti sr off9 => formatPc9 0xB#4 sr off9
  | .str sr baser off6 => formatBase6 0x7#4 sr baser off6
  | .br n z p off9 => formatPc9 0x0#4 (BitVec.ofBool n ++ BitVec.ofBool z ++ BitVec.ofBool p) off9
  | .jmp baser => formatBase6 0xC#4 0#3 baser 0#6
  | .ret => formatBase6 0xC#4 0#3 7#3 0#6
  | .jsr off11 => formatLow12 0x4#4 (1#1 ++ off11)
  -- mode bit 0 (bit 11) and the two ignored bits 10..9 make three zero bits
  | .jsrr baser => formatBase6 0x4#4 0#3 baser 0#6
  | .trap vect => formatLow12 0xF#4 (0#4 ++ vect)
  | .rti => formatLow12 0x8#4 0#12
  | .res => formatLow12 0xD#4 0#12

/-! ## The opcode map as masks and patterns -/

/-- The mask of the instruction's row (R90). -/
def Instr.mask : Instr → Word
  | .addReg _ _ _ | .addImm _ _ _ | .andReg _ _ _ | .andImm _ _ _ => 0xF020#16
  | .ret => 0xF1C0#16
  | .jsr _ | .jsrr _ => 0xF800#16
  | .not _ _ | .ld _ _ | .ldi _ _ | .ldr _ _ _ | .lea _ _ | .st _ _ | .sti _ _ | .str _ _ _ => 0xF000#16
  | .br _ _ _ _ | .jmp _ | .trap _ | .rti | .res => 0xF000#16

/-- The match of the instruction's row (R90). -/
def Instr.pattern : Instr → Word
  | .addReg _ _ _ => 0x1000#16
  | .addImm _ _ _ => 0x1020#16
  | .andReg _ _ _ => 0x5000#16
  | .andImm _ _ _ => 0x5020#16
  | .not _ _ => 0x9000#16
  | .ld _ _ => 0x2000#16
  | .ldi _ _ => 0xA000#16
  | .ldr _ _ _ => 0x6000#16
  | .lea _ _ => 0xE000#16
  | .st _ _ => 0x3000#16
  | .sti _ _ => 0xB000#16
  | .str _ _ _ => 0x7000#16
  | .br _ _ _ _ => 0x0000#16
  | .jmp _ => 0xC000#16
  | .ret => 0xC1C0#16
  | .jsr _ => 0x4800#16
  | .jsrr _ => 0x4000#16
  | .trap _ => 0xF000#16
  | .rti => 0x8000#16
  | .res => 0xD000#16

/-- The bits the instruction ignores: "any value of these bits decodes as the instruction" (R88). -/
def Instr.ignored : Instr → Word
  | .addReg _ _ _ | .andReg _ _ _ => 0x0018#16
  | .not _ _ => 0x003F#16
  | .jmp _ | .ret => 0x0E3F#16
  | .jsrr _ => 0x063F#16
  | .trap _ => 0x0F00#16
  | .rti | .res => 0x0FFF#16
  | .addImm _ _ _ | .andImm _ _ _ | .ld _ _ | .ldi _ _ | .ldr _ _ _ | .lea _ _ => 0#16
  | .st _ _ | .sti _ _ | .str _ _ _ | .br _ _ _ _ | .jsr _ => 0#16

/-! ## Extension of fields (R12, R84) -/

/-- `sext_n`: the field read as two's complement and widened to 16 bits (00_scope.md R12). -/
def sext {n : Nat} (f : BitVec n) : Word := f.signExtend 16

/-- `zext_8`: the byte with bits 15..8 zero (00_scope.md R12). -/
def zext8 (b : Byte) : Word := b.setWidth 16

/-- Bits 7..0 of a word (43_trap.md R183). -/
def lowByte (w : Word) : Byte := w.extractLsb' 0 8

/-- Bits 15..8 of a word (43_trap.md R186). -/
def highByte (w : Word) : Byte := w.extractLsb' 8 8

/-- A word from two bytes of the image, the high byte first (70_reset_and_hazards.md R251). -/
def wordOfBytes (hi lo : Byte) : Word := hi ++ lo

/-! ## The host's question -/

/-- The instruction the decoder reads from an instruction whose bits are `w`, the bits above `nbits` being 0, under
the default `CANONICAL_ONLY` = false. -/
def decodeTableWord (nbits w : Nat) : Option Instr :=
  match decodeWith false (BitVec.ofNat 16 (w % 2 ^ nbits)) with
  | .instr i => some i
  | .nonCanonical _ => none

end Sys2Proof
end

