-- ==== Sys2Proof/Machine/Defaults.lean ====
section
/-! DEFINITION. The default of every parameter of 00_scope.md rule R6, and the values construction gives PC and COND. -/

namespace Sys2Proof.Machine

/-- The defaults the spec states (92_eei_decisions.md D3, D6, D7, D8; log 3). -/
def defaultConfig : Config where
  kbsrReadyWord := .cleared
  linkSetsCond := false
  jsrrReadsBaseFirst := false
  canonicalOnly := false

/-- PC_START, the construction value of PC (00_scope.md R5). -/
def pcStart : Word := 0x3000#16

/-- COND encoding POS = 1 (00_scope.md R5). -/
def condPos : Word := 1#16

/-- COND encoding ZRO = 2 (00_scope.md R5). -/
def condZro : Word := 2#16

/-- COND encoding NEG = 4 (00_scope.md R5). -/
def condNeg : Word := 4#16

/-- KBSR_ADDR, the keyboard status word (00_scope.md R5). -/
def kbsrAddr : Word := 0xFE00#16

/-- KBDR_ADDR, the keyboard data word (00_scope.md R5). -/
def kbdrAddr : Word := 0xFE02#16

end Sys2Proof.Machine
end

