-- ==== Sys2Proof/Machine/Flags.lean ====
section
/-! DEFINITION. The condition values: the flag of a written word (00_scope.md rule R14) and BR's test of COND
(42_control.md rule R161). These are all the flag computations the spec gives (40_operate.md rule R117). -/

namespace Sys2Proof.Machine

/-- `flag(v)`: ZRO if `v = 0`, NEG if `v[15] = 1`, POS otherwise (00_scope.md R14). -/
def flag (v : Word) : Word :=
  if v = 0#16 then condZro else if v.msb then condNeg else condPos

/-- BR's condition field `inst[11:9]` read as a 3-bit number, widened to a word (30_encoding.md R87). -/
def condBits (n z p : Bool) : Word :=
  (BitVec.ofBool n ++ BitVec.ofBool z ++ BitVec.ofBool p).setWidth 16

/-- `(cond & inst[11:9]) != 0` (42_control.md R161). -/
def brTaken (cond : Word) (n z p : Bool) : Bool := (cond &&& condBits n z p) != 0#16

end Sys2Proof.Machine
end

