-- ==== Sys2Proof/Machine/State.lean ====
section
/-! DEFINITION. The machine's state as plain data: the register file and memory (10_state.md rules R20 to R29,
20_memory.md R50), the run state (10_state.md R30), what the host side of the ports holds (R32), and the parameters
(00_scope.md R6). -/

namespace Sys2Proof.Machine

/-- One word of memory at its address. The machine is word addressed and has no byte addressing (20_memory.md R50),
so a cell holds a word; log 1. -/
abbrev Cell := Nat × Word

/-- Memory: the cells whose word differs from what an unlisted address reads as, by strictly rising address (log 1). -/
abbrev Memory := List Cell

/-- The reason recorded in `Halted` (60_exceptions.md R220). -/
inductive HaltReason where
  /-- TRAP with vector 0x25. -/
  | haltTrap
  /-- TRAP with a vector outside 0x20..0x25, which it records. -/
  | unimplementedTrap (v : BitVec 8)
  /-- RTI or RES, whose opcode it records. -/
  | unsupportedOpcode (op : BitVec 4)
  /-- A `Fail` answer at the input or output port. -/
  | ioError
deriving DecidableEq, Repr

/-- The service whose `InputRead` has no answer yet (10_state.md R30). -/
inductive WaitFor where
  /-- GETC (43_trap.md R182). -/
  | getc
  /-- IN, its prompt already written (R185). -/
  | inEcho
deriving DecidableEq, Repr

/-- The service that writes a string (43_trap.md R184, R186). -/
inductive StringService where
  | puts
  | putsp
deriving DecidableEq, Repr

/-- The run state the Execution Loop owns (10_state.md R30, R34). -/
inductive RunState where
  /-- After construction, before an image is loaded (R34 "not started"). -/
  | notStarted
  /-- The image load failed: "execution never starts" (60_exceptions.md R223). -/
  | imageError
  /-- Between instructions of a run. -/
  | running
  /-- Blocked inside GETC or IN (R30). -/
  | waiting (w : WaitFor)
  /-- Inside PUTS or PUTSP, the next word at `a`: 65536 words have been read since the last step began and none was
  zero. To the spec this is Running, in a string that may never end (60_exceptions.md R228; log 14). -/
  | writing (k : StringService) (a : Word)
  /-- The run has ended (R31). -/
  | halted (r : HaltReason)
deriving DecidableEq, Repr

/-- What the host presents at the image-load port (00_scope.md R7(a), 70 R253). -/
inductive ImageStream where
  /-- The image cannot be opened or read. -/
  | unreadable
  /-- The image's bytes. -/
  | bytes (bs : List Byte)
deriving DecidableEq, Repr

/-- What `InputRead` answers once the listed answers are taken (log 5). -/
inductive InputTail where
  /-- Nothing, until the host supplies more. -/
  | stopped
  /-- This answer, every time: a stream at its end, or a key held down. -/
  | repeats (a : ReadAnswer)
  /-- Free values: each time a byte, `Fail`, or nothing (log 8). -/
  | free
deriving DecidableEq, Repr

/-- One event at the output port (00_scope.md R7(c)). -/
inductive OutEvent where
  /-- `OutputByte(b)` answered `Ok`. -/
  | byte (b : Byte)
  /-- `OutputNotice(k)` answered `Ok`. -/
  | notice (k : NoticeKind)
deriving DecidableEq, Repr

/-- The host's coming answers at a port: first the script's, then `rest` for ever, or free values where `rest` is
`none` (log 6, 7, 8). -/
structure Draws (α : Type) where
  script : List α
  rest : Option α
deriving DecidableEq, Repr

/-- The state of the machine. -/
structure State where
  /-- The parameters of 00_scope.md R6; no step changes them (log 3). -/
  cfg : Config
  /-- R0..R7 (10_state.md R21). -/
  regs : Vector Word 8
  /-- The program counter (R26). -/
  pc : Word
  /-- The condition register (R28). -/
  cond : Word
  /-- The memory, the two keyboard words among it (20_memory.md R50, R60). -/
  mem : Memory
  /-- The run state (R30). -/
  run : RunState
  /-- The image-load port: the stream not yet read, if the host has presented one (00_scope.md R7(a); log 11). -/
  image : Option ImageStream
  /-- The input port: the answers to `InputRead` not yet taken, in order (R32; log 5). -/
  reads : List ReadAnswer
  /-- The input port: what follows those answers, for ever (log 5). -/
  tail : InputTail
  /-- The model's own: how many answers have been taken from the tail, which numbers the free ones (log 8). -/
  taken : Nat
  /-- The input port: the answers to `InputPoll` while an answer to `InputRead` is pending (60 R236; log 6). -/
  polls : Draws Bool
  /-- The output port: the answers to its writes (00_scope.md R7(c); log 7). -/
  writes : Draws PortAnswer
  /-- The model's own: how many answers to polls and writes have been drawn, which numbers the free ones (log 8). -/
  drawn : Nat
  /-- The output port: what has been written, in order (R32, 00_scope.md R8). -/
  output : List OutEvent
deriving DecidableEq, Repr

/-- Why a step answers no next state. None of these is an effect of an instruction: an instruction that stops the run
answers a next state whose run state is `halted` (log 13). -/
inductive Fault where
  /-- Raised by `step`: the run has ended and "no step exists" (10_state.md R31). Safe. -/
  | halted (r : HaltReason)
  /-- Raised by `step`: no image has been presented, so the run has not started (70 R252; log 11). Safe. -/
  | noImage
  /-- Raised by `step`: the image load failed and "execution never starts" (60 R223). Safe. -/
  | imageError
deriving DecidableEq, Repr

/-- Why an instruction has no meaning here. -/
inductive Refusal where
  /-- Raised by an arm of `exec` whose instruction has no meaning yet. Safe. -/
  | notModelled (mnemonic : String)
  /-- Raised by `step`: with `CANONICAL_ONLY` = true "a non-canonical word" is refused (30 R88). Safe. -/
  | nonCanonical (w : Word)
deriving DecidableEq, Repr

/-- The machine after construction (70_reset_and_hazards.md R250; 10_state.md R34), the host's side of the ports as
log 5, 6, 7 and 11 name it: every answer it gives is free (93_implementation_defined.md U5, U7, U9, U10). -/
def State.reset : State where
  cfg := defaultConfig
  regs := Vector.replicate 8 0#16
  pc := pcStart
  cond := condZro
  mem := []
  run := .notStarted
  image := none
  reads := []
  tail := .free
  taken := 0
  polls := { script := [], rest := none }
  writes := { script := [], rest := none }
  drawn := 0
  output := []

end Sys2Proof.Machine
end

