-- ==== Sys2Proof/Machine/Ops.lean ====
section
/-! DEFINITION. The named operations over memory, registers and ports that every meaning is written in
(00_scope.md rule R13), stopping the run among them (60_exceptions.md rules R221, R222). -/

namespace Sys2Proof.Machine

/-! ## Memory -/

/-- What an address no cell lists reads as: "zero-initialized at construction" (20_memory.md R50). -/
def Memory.unlisted : Word := 0#16

/-- The stored word at an address, with no poll: `M[a]` of 20_memory.md R52. -/
def Memory.read : Memory → Word → Word
  | [], _ => Memory.unlisted
  | (k, v) :: rest, a => if k = a.toNat then v else Memory.read rest a

/-- `M[a] := v` for a word an unlisted address does not read as: the cell goes to its place by address. -/
def Memory.put : Memory → Word → Word → Memory
  | [], a, v => [(a.toNat, v)]
  | (k, u) :: rest, a, v =>
    if k < a.toNat then (k, u) :: Memory.put rest a v
    else if k = a.toNat then (k, v) :: rest
    else (a.toNat, v) :: (k, u) :: rest

/-- `M[a] := v` (20_memory.md R55), keeping the canonical form: writing the unlisted value removes the cell. -/
def Memory.write (m : Memory) (a v : Word) : Memory :=
  if v = Memory.unlisted then m.filter (fun c => c.1 != a.toNat) else m.put a v

/-- The canonical form: addresses strictly rising and in the address space, no cell at the unlisted value. -/
def Memory.wf : Memory → Bool
  | [] => true
  | (k, v) :: rest =>
    decide (k < 65536) && decide (v ≠ Memory.unlisted) && rest.all (fun c => decide (k < c.1)) && Memory.wf rest

/-! ## Registers -/

/-- `x[i]`: the stored word, no side effect (10_state.md R22). -/
def State.reg (s : State) (r : Reg) : Word := s.regs[r.toNat]'r.isLt

/-- `R[i] := v` alone, COND untouched: the store both register writes share (10_state.md R23, R24). -/
def State.putReg (s : State) (r : Reg) (v : Word) : State :=
  { s with regs := s.regs.set r.toNat v r.isLt }

/-- `x[i] <- v`: the flag-affecting write, COND recomputed from the written value (10_state.md R23). -/
def State.setReg (s : State) (r : Reg) (v : Word) : State :=
  { s.putReg r v with cond := flag v }

/-- `link(v)`: the write of R7 by JSR, JSRR and TRAP. It leaves COND unchanged, unless `LINK_SETS_COND` selects the
other reading (10_state.md R24, D6). -/
def State.link (s : State) (v : Word) : State :=
  if s.cfg.linkSetsCond then s.setReg 7#3 v else s.putReg 7#3 v

/-- `pc <- target`; never touches COND (10_state.md R27). -/
def State.setPc (s : State) (target : Word) : State := { s with pc := target }

/-- The increment every step makes before any opcode effect, modulo 2^16 (10_state.md R26). -/
def State.advance (s : State) : State := s.setPc (s.pc + 1#16)

/-! ## Effects of an instruction, in order -/

/-- How an operation inside an instruction ends. -/
inductive Op (α : Type) where
  /-- It gave `a`, and the instruction goes on from `s`. -/
  | done (a : α) (s : State)
  /-- The instruction's step ends in `s`: the run was stopped, waits, or is inside a string that goes on. -/
  | ended (s : State)

/-- Perform one operation, then the next; nothing follows one that ended the step (60 R222). -/
def Op.andThen {α β : Type} (x : Op α) (f : α → State → Op β) : Op β :=
  match x with
  | .done a s => f a s
  | .ended s => .ended s

/-- The outcome of an instruction whose effects are these. -/
def Op.outcome {α : Type} (x : Op α) : Host.Outcome State Fault Refusal :=
  match x with
  | .done _ s => .next s
  | .ended s => .next s

/-- `raise E`: the run state becomes `Halted(E)`; effects already performed stay (00_scope.md R13, 60 R221). This is
the machine's whole exception entry: no handler, no saved register (60 R226), and nothing returns from it (60 R227). -/
def raise {α : Type} (r : HaltReason) (s : State) : Op α := .ended { s with run := .halted r }

/-! ## The ports -/

/-- The next answer and the draws left; `free` is the answer where the data leave it free (log 8). -/
def Draws.draw {α : Type} (d : Draws α) (free : α) : α × Draws α :=
  match d.script with
  | a :: more => (a, { d with script := more })
  | [] => (d.rest.getD free, d)

/-- The answer the next `InputRead` gets, if there is one: the listed answers first, then the tail's (log 5). -/
def State.nextAnswer (s : State) : Option ReadAnswer :=
  match s.reads, s.tail with
  | a :: _, _ => some a
  | [], .stopped => none
  | [], .repeats a => some a
  | [], .free => Config.freeRead s.taken

/-- The state once that answer is taken: each is given once (60 R236). -/
def State.takeInput (s : State) : State :=
  match s.reads with
  | _ :: more => { s with reads := more }
  | [] => { s with taken := s.taken + 1 }

/-- `InputPoll()`: never blocks; the host's draw, "true only when a byte is pending" (60 R236; log 6). -/
def State.inputPoll (s : State) : Bool × State :=
  match s.nextAnswer with
  | none => (false, s)
  | some _ =>
    let d := s.polls.draw (Config.freePoll s.drawn)
    (d.1, { s with polls := d.2, drawn := s.drawn + 1 })

/-- `InputRead()` when it has an answer: a byte, or `Fail`, which raises IoError (60 R220). Without one the run state
is Waiting (10_state.md R30; log 5). -/
def inputRead (w : WaitFor) (s : State) : Op Byte :=
  match s.nextAnswer with
  | none => .ended { s with run := .waiting w }
  | some (.byte b) => .done b s.takeInput
  | some .fail => raise .ioError s.takeInput

/-- One write at the output port, flushed at once (00_scope.md R8); `Fail` raises IoError (60 R220, D17) and leaves no
event (log 10). -/
def emit (e : OutEvent) (s : State) : Op Unit :=
  let d := s.writes.draw (Config.freeWrite s.drawn)
  let s' := { s with writes := d.2, drawn := s.drawn + 1 }
  match d.1 with
  | .ok => .done () { s' with output := s'.output ++ [e] }
  | .fail => raise .ioError s'

/-- `OutputByte(b)` (00_scope.md R7(c)). -/
def outputByte (b : Byte) (s : State) : Op Unit := emit (.byte b) s

/-- `OutputNotice(k)` (00_scope.md R7(c)). -/
def outputNotice (k : NoticeKind) (s : State) : Op Unit := emit (.notice k) s

/-- The bytes of one output event; a notice's are the opaque constants of D11 (log 9). -/
def OutEvent.bytes : OutEvent → List Byte
  | .byte b => [b]
  | .notice .inPrompt => Config.inPrompt
  | .notice .haltNotice => Config.haltNotice

/-- The byte stream the output port has carried. -/
def State.outputBytes (s : State) : List Byte := s.output.flatMap OutEvent.bytes

/-! ## Memory accesses -/

/-- `MemWrite(a, 16, v)`: unconditional, no side effect, at every address (20_memory.md R55). -/
def memWrite (a v : Word) (s : State) : State := { s with mem := s.mem.write a v }

/-- The word a ready poll leaves at 0xFE00 (20_memory.md R53, D3). -/
def readyWord (s : State) : Word :=
  match s.cfg.kbsrReadyWord with
  | .cleared => 0x8000#16
  | .keepsOld => s.mem.read kbsrAddr ||| 0x8000#16

/-- The byte a ready poll consumes into KBDR; `Fail` raises IoError and leaves KBDR as it was (20_memory.md R53, D5).
A ready poll has an answer pending, so the read does not wait. -/
def pollConsume (s : State) : Op Unit :=
  match s.nextAnswer with
  | none => .done () s
  | some (.byte b) => .done () (memWrite kbdrAddr (zext8 b) s.takeInput)
  | some .fail => raise .ioError s.takeInput

/-- `KeyboardPoll()` (20_memory.md R53). -/
def keyboardPoll (s : State) : Op Unit :=
  match s.inputPoll with
  | (true, s1) => pollConsume (memWrite kbsrAddr (readyWord s1) s1)
  | (false, s1) => .done () (memWrite kbsrAddr 0#16 s1)

/-- `MemRead(a, 16)`: a read of 0xFE00 polls the keyboard first; every other read is pure (20_memory.md R52). -/
def memRead (a : Word) (s : State) : Op Word :=
  if a = kbsrAddr then (keyboardPoll s).andThen fun _ s1 => .done (s1.mem.read a) s1
  else .done (s.mem.read a) s

/-! ## What the host does between steps -/

/-- The host answers an `InputRead`, now or later: the answers keep their order (60 R236). -/
def State.supplyInput (s : State) (a : ReadAnswer) : State := { s with reads := s.reads ++ [a] }

/-- The host presents the image (00_scope.md R7(a)). -/
def State.presentImage (s : State) (img : ImageStream) : State := { s with image := some img }

end Sys2Proof.Machine
end

