-- ==== Sys2Proof/Machine/Operands.lean ====
section
/-! DEFINITION. The operand forms: immediates (30_encoding.md rule R84) and effective addresses
(41_load_store.md rule R131). Every address is modulo 2^16; `s.pc` is the incremented PC (10_state.md rule R26). -/

namespace Sys2Proof.Machine

/-- `pc + sext_9(inst[8:0])`: LD, ST, LEA, the pointer of LDI and STI, BR's target (R131, 42 R161). -/
def State.pcRel9 (s : State) (off9 : BitVec 9) : Word := s.pc + sext off9

/-- `pc + sext_11(inst[10:0])`: JSR's target (42 R166). -/
def State.pcRel11 (s : State) (off11 : BitVec 11) : Word := s.pc + sext off11

/-- `x[BaseR] + sext_6(inst[5:0])`: LDR, STR (R131). -/
def State.baseOff6 (s : State) (baser : Reg) (off6 : BitVec 6) : Word := s.reg baser + sext off6

/-- Write a loaded word through the flag path (41_load_store.md R130). -/
def loadInto (dr : Reg) (v : Word) (s : State) : Op Unit := .done () (s.setReg dr v)

/-- `x[DR] <- MemRead(ea)`: what LD and LDR share, and LDI after its pointer (41_load_store.md R130, R132, R134). -/
def loadWord (dr : Reg) (ea : Word) (s : State) : Op Unit := (memRead ea s).andThen (loadInto dr)

end Sys2Proof.Machine
end

