-- ==== Sys2Proof/Machine/Control.lean ====
section
/-! DEFINITION. BR, JMP, RET, JSR, JSRR (42_control.md). They override the incremented PC at once: no delay slot
(rule R160). None writes COND, but for the link write under `LINK_SETS_COND` (rule R165, D6). -/

namespace Sys2Proof.Machine

/-- BR (42_control.md R161). -/
def execBr (n z p : Bool) (off9 : BitVec 9) (s : State) : Host.Outcome State Fault Refusal :=
  .next (if brTaken s.cond n z p then s.setPc (s.pcRel9 off9) else s)

/-- `pc <- x[BaseR]`, what JMP and RET share (R163). -/
def jumpReg (baser : Reg) (s : State) : State := s.setPc (s.reg baser)

/-- JMP (R163). -/
def execJmp (baser : Reg) (s : State) : Host.Outcome State Fault Refusal := .next (jumpReg baser s)

/-- RET: JMP through R7 (R163, R164). -/
def execRet (s : State) : Host.Outcome State Fault Refusal := .next (jumpReg 7#3 s)

/-- JSR: R7 := the return address, then the target from it (R165, R166). -/
def execJsr (off11 : BitVec 11) (s : State) : Host.Outcome State Fault Refusal :=
  .next ((s.link s.pc).setPc (s.pcRel11 off11))

/-- JSRR: the link write, then the base read, unless `JSRR_READS_BASE_FIRST` selects the other order (R167, R168). -/
def execJsrr (baser : Reg) (s : State) : Host.Outcome State Fault Refusal :=
  let linked := s.link s.pc
  .next (linked.setPc (if s.cfg.jsrrReadsBaseFirst then s.reg baser else linked.reg baser))

end Sys2Proof.Machine
end

