-- ==== Sys2Proof/Machine/LoadStore.lean ====
section
/-! DEFINITION. LD, LDI, LDR, LEA, ST, STI, STR (41_load_store.md). A read of 0xFE00 polls the keyboard and may raise
IoError, after which nothing more of the instruction happens (20_memory.md rules R52, R53; 60_exceptions.md R222). -/

namespace Sys2Proof.Machine

/-- LD (41_load_store.md R130). -/
def execLd (dr : Reg) (off9 : BitVec 9) (s : State) : Host.Outcome State Fault Refusal :=
  (loadWord dr (s.pcRel9 off9) s).outcome

/-- LDI: two reads, in this order (R132). -/
def execLdi (dr : Reg) (off9 : BitVec 9) (s : State) : Host.Outcome State Fault Refusal :=
  ((memRead (s.pcRel9 off9) s).andThen fun ea s1 => loadWord dr ea s1).outcome

/-- LDR: the base is read before DR is written (R134). -/
def execLdr (dr baser : Reg) (off6 : BitVec 6) (s : State) : Host.Outcome State Fault Refusal :=
  (loadWord dr (s.baseOff6 baser off6) s).outcome

/-- LEA: the address itself, no memory access; it sets COND (R136, R137). -/
def execLea (dr : Reg) (off9 : BitVec 9) (s : State) : Host.Outcome State Fault Refusal :=
  .next (s.setReg dr (s.pcRel9 off9))

/-- ST (R138). -/
def execSt (sr : Reg) (off9 : BitVec 9) (s : State) : Host.Outcome State Fault Refusal :=
  .next (memWrite (s.pcRel9 off9) (s.reg sr) s)

/-- STI: the pointer read is a real read and polls at 0xFE00; the write does not (R140). -/
def execSti (sr : Reg) (off9 : BitVec 9) (s : State) : Host.Outcome State Fault Refusal :=
  ((memRead (s.pcRel9 off9) s).andThen fun ea s1 => .done () (memWrite ea (s1.reg sr) s1)).outcome

/-- STR (R142). -/
def execStr (sr baser : Reg) (off6 : BitVec 6) (s : State) : Host.Outcome State Fault Refusal :=
  .next (memWrite (s.baseOff6 baser off6) (s.reg sr) s)

end Sys2Proof.Machine
end

