-- ==== Sys2Proof/Machine/Operate.lean ====
section
/-! DEFINITION. ADD, AND, NOT (40_operate.md). Sources are read before the destination is written (rule R265), COND
is set from the result, nothing else changes, and no overflow is recorded (rules R112, R117). -/

namespace Sys2Proof.Machine

/-- ADD, register form (40_operate.md R110). -/
def execAddReg (dr sr1 sr2 : Reg) (s : State) : Host.Outcome State Fault Refusal :=
  .next (s.setReg dr (s.reg sr1 + s.reg sr2))

/-- ADD, immediate form (R111). -/
def execAddImm (dr sr1 : Reg) (imm5 : BitVec 5) (s : State) : Host.Outcome State Fault Refusal :=
  .next (s.setReg dr (s.reg sr1 + sext imm5))

/-- AND, register form (R113). -/
def execAndReg (dr sr1 sr2 : Reg) (s : State) : Host.Outcome State Fault Refusal :=
  .next (s.setReg dr (s.reg sr1 &&& s.reg sr2))

/-- AND, immediate form (R114). -/
def execAndImm (dr sr1 : Reg) (imm5 : BitVec 5) (s : State) : Host.Outcome State Fault Refusal :=
  .next (s.setReg dr (s.reg sr1 &&& sext imm5))

/-- NOT (R116). -/
def execNot (dr sr : Reg) (s : State) : Host.Outcome State Fault Refusal :=
  .next (s.setReg dr (~~~ s.reg sr))

end Sys2Proof.Machine
end

