-- ==== Sys2Proof/Machine/Trap.lean ====
section
/-! DEFINITION. TRAP and the six services of the Trap Dispatcher (43_trap.md). A service runs inside the TRAP's step
and never writes PC (rule R180). -/

namespace Sys2Proof.Machine

/-- `x[0] <- zext_8(r)`: GETC's and IN's result (R182, R185). -/
def putChar (b : Byte) (s : State) : Op Unit := .done () (s.setReg 0#3 (zext8 b))

/-- GETC: one byte from the input port into R0, no echo (R182). It is also what a waiting GETC resumes with. -/
def getc (s : State) : Op Unit := (inputRead .getc s).andThen putChar

/-- OUT: the low byte of R0 (R183). -/
def out (s : State) : Op Unit := outputByte (lowByte (s.reg 0#3)) s

/-- IN after its prompt: read, echo, store (R185). It is also what a waiting IN resumes with. -/
def inAfterPrompt (s : State) : Op Unit :=
  (inputRead .inEcho s).andThen fun b s1 => (outputByte b s1).andThen fun _ s2 => putChar b s2

/-- IN: the prompt, flushed before the read waits, then the rest (R185). -/
def inService (s : State) : Op Unit := (outputNotice .inPrompt s).andThen fun _ s1 => inAfterPrompt s1

/-- PUTS writes a word's low byte (R184). -/
def putWord (w : Word) (s : State) : Op Unit := outputByte (lowByte w) s

/-- PUTSP writes the low byte always, then the high byte if it is nonzero (R186, D15). -/
def putPacked (w : Word) (s : State) : Op Unit :=
  (outputByte (lowByte w) s).andThen fun _ s1 =>
    if highByte w = 0#8 then .done () s1 else outputByte (highByte w) s1

/-- What a string service writes for one nonzero word. -/
def putString (k : StringService) (w : Word) (s : State) : Op Unit :=
  match k with
  | .puts => putWord w s
  | .putsp => putPacked w s

/-- The loop of PUTS and PUTSP from address `a` on, for at most `fuel` words (R184, R186). If none of them is zero the
step ends inside the string, and the next goes on from there (60_exceptions.md R228; log 14). -/
def stringLoop (k : StringService) : Nat → Word → State → Op Unit
  | 0, a, s => .ended { s with run := .writing k a }
  | fuel + 1, a, s =>
    (memRead a s).andThen fun w s1 =>
      if w = 0#16 then .done () s1
      else (putString k w s1).andThen fun _ s2 => stringLoop k fuel (a + 1#16) s2

/-- The words of one step of a string: the whole memory once, so that only a string longer than that takes more than
one step (log 14). -/
def stringPass : Nat := 65536

/-- PUTS (R184). -/
def puts (s : State) : Op Unit := stringLoop .puts stringPass (s.reg 0#3) s

/-- PUTSP (R186). -/
def putsp (s : State) : Op Unit := stringLoop .putsp stringPass (s.reg 0#3) s

/-- HALT: the notice, then the stop (R187). -/
def halt (s : State) : Op Unit := (outputNotice .haltNotice s).andThen fun _ s1 => raise .haltTrap s1

/-- The service a vector selects; any vector outside 0x20..0x25 stops the run (R181, R188). -/
def service (vect : BitVec 8) (s : State) : Op Unit :=
  match vect.toNat with
  | 0x20 => getc s
  | 0x21 => out s
  | 0x22 => puts s
  | 0x23 => inService s
  | 0x24 => putsp s
  | 0x25 => halt s
  | _ => raise (.unimplementedTrap vect) s

/-- TRAP: R7 is written before dispatch, for every vector (R181). -/
def execTrap (vect : BitVec 8) (s : State) : Host.Outcome State Fault Refusal :=
  (service vect (s.link s.pc)).outcome

/-- A waiting GETC or IN goes on: it completes when the host has answered, and waits on otherwise (10_state.md R30,
70 R262; log 15). -/
def resume (w : WaitFor) (s : State) : Host.Outcome State Fault Refusal :=
  match w with
  | .getc => (getc { s with run := .running }).outcome
  | .inEcho => (inAfterPrompt { s with run := .running }).outcome

/-- A string that the last step did not reach the end of goes on (R184, R186; log 14). -/
def continueString (k : StringService) (a : Word) (s : State) : Host.Outcome State Fault Refusal :=
  (stringLoop k stringPass a { s with run := .running }).outcome

end Sys2Proof.Machine
end

