-- ==== Sys2Proof/Machine/Unsupported.lean ====
section
/-! DEFINITION. RTI and RES (44_unsupported.md): each stops the run with UnsupportedOpcode and changes nothing else. -/

namespace Sys2Proof.Machine

/-- The stop both share; it records the opcode (60_exceptions.md R220). -/
def unsupported (op : BitVec 4) (s : State) : Op Unit := raise (.unsupportedOpcode op) s

/-- RTI (44_unsupported.md R210). -/
def execRti (s : State) : Host.Outcome State Fault Refusal := (unsupported 0x8#4 s).outcome

/-- RES (R211). -/
def execRes (s : State) : Host.Outcome State Fault Refusal := (unsupported 0xD#4 s).outcome

end Sys2Proof.Machine
end

