-- ==== Sys2Proof/Machine/Fetch.lean ====
section
/-! DEFINITION. The fetch of one instruction (70_reset_and_hazards.md rules R260, R261), and placing a word where the
next fetch reads it. -/

namespace Sys2Proof.Machine

/-- `inst := MemRead(pc, 16)`, then the increment. A fetch whose own poll fails ends the step before the increment
(R261, D21). -/
def fetch (s : State) : Op Word := (memRead s.pc s).andThen fun w s1 => .done w s1.advance

/-- `s` about to run the instruction word `w`: the run state is Running and the word stands at PC. A word placed at
0xFE00 is never fetched, the poll overwriting it (20_memory.md R53), so from there PC is moved to PC_START first. -/
def placeWord (s : State) (w : Word) : State :=
  let at' := if s.pc = kbsrAddr then s.setPc pcStart else s
  { memWrite at'.pc w at' with run := .running }

end Sys2Proof.Machine
end

