-- ==== Sys2Proof/Machine/Loader.lean ====
section
/-! DEFINITION. The Image Loader (70_reset_and_hazards.md rules R251 to R254). It writes PC, memory and the run state,
and no general register, not COND; its writes do not poll the keyboard. -/

namespace Sys2Proof.Machine

/-- The image's words from address `a` on, high byte first, the address wrapping; whether the stream ended between
words (R252). -/
def loadWords : Word → List Byte → Memory → Memory × Bool
  | a, hi :: lo :: more, m => loadWords (a + 1#16) more (m.write a (wordOfBytes hi lo))
  | _, [_], m => (m, false)
  | _, [], m => (m, true)

/-- `load(bytes)` (R252), and its failures (R253): the run state becomes Running or the image error. What a failed
load has written by then stays (log 12). The stream is read once (00_scope.md R7(a)). -/
def load (img : ImageStream) (s : State) : State :=
  match img with
  | .bytes (b0 :: b1 :: more) =>
    let loaded := loadWords (wordOfBytes b0 b1) more s.mem
    { s with
      pc := wordOfBytes b0 b1
      mem := loaded.1
      image := none
      run := if loaded.2 then .running else .imageError }
  | .bytes [_] | .bytes [] | .unreadable => { s with image := none, run := .imageError }

/-- The step taken before the run: the loader reads the presented image, and without one nothing starts (log 11). -/
def start (s : State) : Host.Outcome State Fault Refusal :=
  match s.image with
  | some img => .next (load img s)
  | none => .fault .noImage

end Sys2Proof.Machine
end

