-- ==== Sys2Proof/Machine/Step.lean ====
section
/-! DEFINITION. One step of the machine, by its run state (10_state.md rules R30, R31; 70_reset_and_hazards.md rules
R260 to R262). -/

namespace Sys2Proof.Machine

/-- The step: the image load before the run, one whole instruction while Running, the rest of GETC or IN while
Waiting, the rest of a string while inside one, and no step once the run has ended or could not start. -/
def step (s : State) : Host.Outcome State Fault Refusal :=
  match s.run with
  | .notStarted => start s
  | .imageError => .fault .imageError
  | .halted r => .fault (.halted r)
  | .waiting w => resume w s
  | .writing k a => continueString k a s
  | .running =>
    match fetch s with
    | .done w s1 =>
      match decodeWith s1.cfg.canonicalOnly w with
      | .instr i => exec i s1
      | .nonCanonical bad => .refused (.nonCanonical bad)
    | .ended s1 => .next s1

/-- `s` with the instruction whose bits are `w`, those above `nbits` zero, where the very next step fetches it, the
run under way: it stands for the load of a program from outside (log 11). -/
def State.withFetchWord (s : State) (nbits w : Nat) : State := placeWord s (BitVec.ofNat 16 (w % 2 ^ nbits))

end Sys2Proof.Machine
end

