-- ==== Sys2Proof/Safety.lean ====
section
/-! DEFINITION. The terms claims about runs are written in: the invariant of the machine, how a run ended, and what an
operation that only reads memory or uses the ports may change. -/

namespace Sys2Proof.Machine

/-- "COND is always one of 1, 2 or 4" (10_state.md R29). -/
def condLegal (c : Word) : Bool := c == condPos || c == condZro || c == condNeg

/-- The invariant every step keeps: memory in canonical form (log 1), COND one of its three values (R29). -/
def State.Inv (s : State) : Prop := s.mem.wf = true ∧ condLegal s.cond = true

/-- "A run that reaches `Halted(HaltTrap)` ended normally" (60_exceptions.md R235). -/
def State.endedNormally (s : State) : Bool := s.run == .halted .haltTrap

/-- "`Halted` with any other reason ended in error" (R235). -/
def State.endedInError (s : State) : Bool :=
  match s.run with
  | .halted r => r != .haltTrap
  | .notStarted | .imageError | .running | .waiting _ | .writing _ _ => false

/-- What a step may change through the keyboard and the ports alone, from `s` to `t`: the two keyboard words, the run
state, the host's answers and the output, which only grows. Registers, PC, COND and every other word stay. -/
structure PortFrame (s t : State) : Prop where
  cfg : t.cfg = s.cfg
  regs : t.regs = s.regs
  pc : t.pc = s.pc
  cond : t.cond = s.cond
  image : t.image = s.image
  read : ∀ a, a ≠ kbsrAddr → a ≠ kbdrAddr → t.mem.read a = s.mem.read a
  wf : s.mem.wf = true → t.mem.wf = true
  reads : t.reads <:+ s.reads
  tail : t.tail = s.tail
  taken : s.taken ≤ t.taken
  output : s.output <+: t.output

/-- What a read of memory may change (20_memory.md R52, R53): as above, and nothing is written at the output port. -/
structure ReadFrame (s t : State) : Prop extends PortFrame s t where
  writes : t.writes = s.writes
  outputSame : t.output = s.output

/-! ## The host's side of the ports, from `s` to `t` -/

/-- No input was taken. -/
def KeptInput (s t : State) : Prop := t.reads = s.reads ∧ t.taken = s.taken

/-- Exactly the next input answer was taken (60_exceptions.md R236). -/
def TookInput (s t : State) : Prop := KeptInput s.takeInput t

/-- The host's answer to the `i`-th coming write, counted from 0, when no poll comes before it (log 7, 8). -/
def State.writeAnswer (s : State) (i : Nat) : PortAnswer :=
  match s.writes.script[i]? with
  | some a => a
  | none => s.writes.rest.getD (Config.freeWrite (s.drawn + i))

/-! ## What one instruction may change -/

/-- From `s` to `t` only the register `dr` and COND may differ: every other register, PC, every word of memory, the
run state and the ports are as before. -/
structure OnlyReg (dr : Reg) (s t : State) : Prop where
  rest : t = { s with regs := t.regs, cond := t.cond }
  others : ∀ r, r ≠ dr → t.reg r = s.reg r

/-- What a load of DR from `ea` does in `s` to reach `t` (41_load_store.md R130): the word read goes to DR and COND, or
the read's poll raised IoError and neither is written. -/
def LoadsFrom (dr : Reg) (ea : Word) (s t : State) : Prop :=
  (∃ v u, memRead ea s = .done v u ∧ ReadFrame s u ∧ t.reg dr = v ∧ t.cond = flag v ∧ OnlyReg dr u t) ∨
  (ea = 0xFE00#16 ∧ memRead ea s = .ended t ∧ t.run = .halted .ioError ∧ ReadFrame s t)

/-- From `s` to `t` only the word of memory at `ea` may differ: every other word, every register, PC, COND, the run
state and the ports are as before. -/
structure OnlyWord (ea : Word) (s t : State) : Prop where
  rest : t = { s with mem := t.mem }
  others : ∀ a, a ≠ ea → t.mem.read a = s.mem.read a

/-- From `s` to `t` only PC may differ. -/
def OnlyPc (s t : State) : Prop := t = { s with pc := t.pc }

/-- From `s` to `t` only the register R7, PC and, under `LINK_SETS_COND`, COND may differ. -/
structure OnlyLink (s t : State) : Prop where
  rest : t = { s with regs := t.regs, pc := t.pc, cond := t.cond }
  cond : t.cond = if s.cfg.linkSetsCond then flag s.pc else s.cond
  others : ∀ r, r ≠ 7#3 → t.reg r = s.reg r

/-- From `s` to `t` a TRAP whose service writes no register, no memory and polls nothing: R7 holds the return address,
COND differs only under `LINK_SETS_COND`, and otherwise only the run state and the ports may differ (R181, R226). -/
structure TrapFrame (s t : State) : Prop where
  rest : t = { s with regs := t.regs, cond := t.cond, run := t.run, reads := t.reads, taken := t.taken,
                      writes := t.writes, drawn := t.drawn, output := t.output }
  link : t.reg 7#3 = s.pc
  others : ∀ r, r ≠ 7#3 → t.reg r = s.reg r
  cond : t.cond = if s.cfg.linkSetsCond then flag s.pc else s.cond

/-- From `s` to `t` a TRAP whose service wrote the character `b` to R0 (43_trap.md R182, R185): COND is set from it,
R7 holds the return address, and otherwise only the ports may differ. -/
structure CharFrame (b : Byte) (s t : State) : Prop where
  rest : t = { s with regs := t.regs, cond := t.cond, reads := t.reads, taken := t.taken, writes := t.writes,
                      drawn := t.drawn, output := t.output }
  char : t.reg 0#3 = zext8 b
  link : t.reg 7#3 = s.pc
  others : ∀ r, r ≠ 0#3 → r ≠ 7#3 → t.reg r = s.reg r
  cond : t.cond = flag (zext8 b)

/-- The column "writes Ri (flag path)" of 10_state.md R25: GETC and IN write R0. -/
def destReg : Instr → Option Reg
  | .addReg dr _ _ | .addImm dr _ _ | .andReg dr _ _ | .andImm dr _ _ | .not dr _ => some dr
  | .ld dr _ | .ldi dr _ | .ldr dr _ _ | .lea dr _ => some dr
  | .trap vect => if vect = 0x20#8 ∨ vect = 0x23#8 then some 0#3 else none
  | .st _ _ | .sti _ _ | .str _ _ _ | .br _ _ _ _ | .jmp _ | .ret | .jsr _ | .jsrr _ | .rti | .res => none

/-- The column "writes R7 (link)" of R25. -/
def linksR7 : Instr → Bool
  | .jsr _ | .jsrr _ | .trap _ => true
  | .addReg _ _ _ | .addImm _ _ _ | .andReg _ _ _ | .andImm _ _ _ | .not _ _ => false
  | .ld _ _ | .ldi _ _ | .ldr _ _ _ | .lea _ _ | .st _ _ | .sti _ _ | .str _ _ _ => false
  | .br _ _ _ _ | .jmp _ | .ret | .rti | .res => false

/-- The column "writes PC" of R25, beyond the increment. -/
def transfersControl : Instr → Bool
  | .br _ _ _ _ | .jmp _ | .ret | .jsr _ | .jsrr _ => true
  | .addReg _ _ _ | .addImm _ _ _ | .andReg _ _ _ | .andImm _ _ _ | .not _ _ => false
  | .ld _ _ | .ldi _ _ | .ldr _ _ _ | .lea _ _ | .st _ _ | .sti _ _ | .str _ _ _ => false
  | .trap _ | .rti | .res => false

/-- The address the instruction stores to, computed as its meaning computes it (41_load_store.md R138, R140, R142). -/
def storeAddress (i : Instr) (s : State) : Option Word :=
  match i with
  | .st _ off9 => some (s.pcRel9 off9)
  | .str _ baser off6 => some (s.baseOff6 baser off6)
  | .sti _ off9 =>
    match memRead (s.pcRel9 off9) s with
    | .done ea _ => some ea
    | .ended _ => none
  | .addReg _ _ _ | .addImm _ _ _ | .andReg _ _ _ | .andImm _ _ _ | .not _ _ => none
  | .ld _ _ | .ldi _ _ | .ldr _ _ _ | .lea _ _ | .br _ _ _ _ | .jmp _ | .ret => none
  | .jsr _ | .jsrr _ | .trap _ | .rti | .res => none

/-- The register whose word the instruction stores, if it is a store (41_load_store.md R138, R140, R142). -/
def storedReg : Instr → Option Reg
  | .st sr _ | .sti sr _ | .str sr _ _ => some sr
  | .addReg _ _ _ | .addImm _ _ _ | .andReg _ _ _ | .andImm _ _ _ | .not _ _ => none
  | .ld _ _ | .ldi _ _ | .ldr _ _ _ | .lea _ _ | .br _ _ _ _ | .jmp _ | .ret => none
  | .jsr _ | .jsrr _ | .trap _ | .rti | .res => none

/-! ## Strings -/

/-- The vector that selects the service (43_trap.md R184, R186). -/
def StringService.vector : StringService → BitVec 8
  | .puts => 0x22#8
  | .putsp => 0x24#8

/-- The words `ws` stand in memory from address `a` on, none of them zero and a zero word after them, and no address
among these is the keyboard status word, so that reading them polls nothing (43_trap.md R184). -/
def stringAt (m : Memory) (a : Word) (ws : List Word) : Prop :=
  (∀ i, (h : i < ws.length) → m.read (a + BitVec.ofNat 16 i) = ws[i] ∧ ws[i] ≠ 0#16) ∧
  m.read (a + BitVec.ofNat 16 ws.length) = 0#16 ∧
  ∀ i, i ≤ ws.length → a + BitVec.ofNat 16 i ≠ kbsrAddr

/-- The bytes PUTSP writes for one word: the low byte, then the high byte if it is nonzero (43_trap.md R186). -/
def packedBytes (w : Word) : List Byte := if highByte w = 0#8 then [lowByte w] else [lowByte w, highByte w]

/-- The bytes a string service writes for these words (R184, R186). -/
def stringBytes (k : StringService) (ws : List Word) : List Byte :=
  match k with
  | .puts => ws.map lowByte
  | .putsp => ws.flatMap packedBytes

/-- A string from here never ends: no word of memory but the keyboard status word is zero, every poll finds a key, each
key is a nonzero byte, and every write is accepted (43_trap.md R184, R186; 60_exceptions.md R228). -/
structure State.Unending (s : State) : Prop where
  words : ∀ a, a ≠ kbsrAddr → s.mem.read a ≠ 0#16
  polls : (∀ x ∈ s.polls.script, x = true) ∧ s.polls.rest = some true
  keys : ∀ x ∈ s.reads, ∃ b, x = .byte b ∧ b ≠ 0#8
  keyHeld : ∃ b, s.tail = .repeats (.byte b) ∧ b ≠ 0#8
  writes : (∀ x ∈ s.writes.script, x = .ok) ∧ s.writes.rest = some .ok

/-- The bytes of an image of these words, each high byte first (70_reset_and_hazards.md R251). -/
def imageBytes (ws : List Word) : List Byte := ws.flatMap fun w => [highByte w, lowByte w]

end Sys2Proof.Machine
end

