-- ==== Sys2Proof/Certificates/Slice0/Obligations.lean ====
section
/-! DEFINITION. The statements for the provers, from the numbered rules of spec/. The host's side of the ports is data in
the state, so "for every state" is for every host (log 5 to 8), and for every value of the parameters of R6 (log 3),
unless a hypothesis fixes one. -/

open Sys2Proof Sys2Proof.Machine

/-! ## Construction, the run state, the step -/

/-- R250: construction sets every register, PC, COND and every word of memory. -/
def Obligations.ConstructionSetsEveryRegisterAndWord : Prop :=
  (∀ r, State.reset.reg r = 0x0000#16) ∧ State.reset.pc = 0x3000#16 ∧ State.reset.cond = 2#16 ∧
  ∀ a, State.reset.mem.read a = 0x0000#16

/-- The run state (10_state.md R34 "not started") and the parameters' defaults (R6; log 3) at reset; and the MODEL'S
CHOICE for the host's side of the ports, which the spec says is no CORE state: no image, nothing supplied, no output
yet, and every answer free (log 5, 6, 7, 8, 9, 11). -/
def Obligations.PortsAndParametersAtReset : Prop :=
  State.reset.run = .notStarted ∧
  State.reset.cfg = { kbsrReadyWord := .cleared, linkSetsCond := false, jsrrReadsBaseFirst := false,
                      canonicalOnly := false } ∧
  State.reset.image = none ∧ State.reset.reads = [] ∧ State.reset.tail = .free ∧ State.reset.output = [] ∧
  State.reset.polls = { script := [], rest := none } ∧ State.reset.writes = { script := [], rest := none }

/-- MODEL'S CHOICE, log 11: the step before the run is the image load of R252, and without an image nothing starts. -/
def Obligations.StepBeforeTheRunLoadsTheImage : Prop :=
  ∀ s : State, s.run = .notStarted →
    (∀ img, s.image = some img → step s = .next (load img s)) ∧ (s.image = none → step s = .fault .noImage)

/-- R31: once the run state is Halted no step exists. -/
def Obligations.HaltedHasNoStep : Prop :=
  ∀ (s : State) (r : HaltReason), s.run = .halted r → step s = .fault (.halted r)

/-- R221: `raise E` sets the run state to `Halted(E)`; everything else stays, and no step exists from then on. -/
def Obligations.RaiseStopsTheRunAndKeepsTheState : Prop :=
  ∀ (r : HaltReason) (s : State), ∃ t, (raise r s : Op Unit) = .ended t ∧ t = { s with run := .halted r } ∧
    step t = .fault (.halted r)

/-- R26: a step fetches the word at PC, increments PC modulo 2^16, and then executes it. (CANONICAL_ONLY at its default.) -/
def Obligations.FetchThenIncrementThenExecute : Prop :=
  ∀ (s s1 : State) (w : Word), s.run = .running → s.cfg.canonicalOnly = false → memRead s.pc s = .done w s1 →
    step s = exec (decode w) { s1 with pc := s.pc + 1#16 }

/-- R260: when the word at PC (not the keyboard status word, whose read polls) decodes to a well-formed instruction,
the step is that instruction executed with PC incremented. The second clause is the MODEL'S CHOICE, log 11:
`withFetchWord`, which the spec does not have, places such a word where the very next step runs it. -/
def Obligations.StepRunsTheDecodedInstruction : Prop :=
  (∀ (s : State) (i : Instr), s.run = .running → s.cfg.canonicalOnly = false → s.pc ≠ 0xFE00#16 →
    i.wellFormed = true → decode (s.mem.read s.pc) = i → step s = exec i { s with pc := s.pc + 1#16 }) ∧
  (∀ (s : State) (w : Nat), s.cfg.canonicalOnly = false → s.pc ≠ 0xFE00#16 →
    step (s.withFetchWord 16 w) =
      exec (decode (BitVec.ofNat 16 w)) { s.withFetchWord 16 w with pc := s.pc + 1#16 })

/-- R261 (the spec's decision D21): a fetch whose own poll fails stops the run before the increment. -/
def Obligations.FailedFetchStopsBeforeTheIncrement : Prop :=
  ∀ s : State, s.run = .running → s.pc = 0xFE00#16 → s.inputPoll.1 = true → s.nextAnswer = some .fail →
    ∃ t, step s = .next t ∧ t.run = .halted .ioError ∧ t.pc = 0xFE00#16 ∧ (∀ r, t.reg r = s.reg r) ∧ t.cond = s.cond

/-- R88 (the spec's decision D8): with `CANONICAL_ONLY` true, a step refuses a word with a non-canonical ignored bit and
runs every other word. -/
def Obligations.CanonicalOnlyRefusesNonCanonicalWords : Prop :=
  ∀ (s s1 : State) (w : Word), s.run = .running → s.cfg.canonicalOnly = true → memRead s.pc s = .done w s1 →
    step s = if canonical w then exec (decode w) { s1 with pc := s.pc + 1#16 } else .refused (.nonCanonical w)

/-! ## Encoding -/

/-- One word of every row of the opcode map, as the rules' own examples write it (40_operate.md to 44_unsupported.md). -/
def Obligations.SampleWordsDecode : Prop :=
  decode 0x1283#16 = .addReg 1#3 2#3 3#3 ∧ decode 0x103D#16 = .addImm 0#3 0#3 29#5 ∧
  decode 0x5283#16 = .andReg 1#3 2#3 3#3 ∧ decode 0x54A0#16 = .andImm 2#3 2#3 0#5 ∧
  decode 0x997F#16 = .not 4#3 5#3 ∧ decode 0x2406#16 = .ld 2#3 6#9 ∧ decode 0xA205#16 = .ldi 1#3 5#9 ∧
  decode 0x62BF#16 = .ldr 1#3 2#3 63#6 ∧ decode 0xE002#16 = .lea 0#3 2#9 ∧ decode 0x3202#16 = .st 1#3 2#9 ∧
  decode 0xB601#16 = .sti 3#3 1#9 ∧ decode 0x70C1#16 = .str 0#3 3#3 1#6 ∧
  decode 0x03FD#16 = .br false false true 509#9 ∧ decode 0xC0C0#16 = .jmp 3#3 ∧ decode 0xC1C0#16 = .ret ∧
  decode 0x4808#16 = .jsr 8#11 ∧ decode 0x46FF#16 = .jsrr 3#3 ∧ decode 0xFF25#16 = .trap 0x25#8 ∧
  decode 0x8FFF#16 = .rti ∧ decode 0xDFFF#16 = .res

/-- Decoding the word of a well-formed instruction gives it back, every operand at every value (30_encoding.md R82,
R90, R91; the numbering is the spec's own choice, log 4; RET has a constructor of its own, log 2). -/
def Obligations.DecodeInvertsEncode : Prop :=
  ∀ i : Instr, i.wellFormed = true → decode (encode i) = i

/-- The words the encoder gives back are exactly those whose ignored bits are canonical (R88). -/
def Obligations.EncodeInvertsDecodeOnCanonicalWords : Prop :=
  ∀ w : Word, canonical w = true ↔ encode (decode w) = w

/-- R90: a word matches its instruction's row, and no row but its own and, for RET, JMP's. -/
def Obligations.OpcodeMapRowsAreDisjointAndCover : Prop :=
  (∀ w : Word, w &&& (decode w).mask = (decode w).pattern) ∧
  ∀ (w : Word) (i : Instr), w &&& i.mask = i.pattern →
    i.mask = (decode w).mask ∧ i.pattern = (decode w).pattern ∨
    decode w = .ret ∧ i.mask = 0xF000#16 ∧ i.pattern = 0xC000#16

/-- R88 (the spec's decision D8): changing any bits an instruction ignores leaves the decoded instruction the same;
and every word decodes to a well-formed instruction. -/
def Obligations.IgnoredBitsHaveNoEffect : Prop :=
  (∀ w x : Word, decode (w ^^^ (x &&& (decode w).ignored)) = decode w) ∧ ∀ w : Word, (decode w).wellFormed = true

/-! ## The register file and the flags -/

/-- R14: `flag(v)` is ZRO (2) for 0, NEG (4) when bit 15 is set, POS (1) otherwise. -/
def Obligations.FlagOfAWrittenWord : Prop :=
  ∀ v : Word, (v = 0x0000#16 → flag v = 2#16) ∧ (v.getLsbD 15 = true → flag v = 4#16) ∧
    (v ≠ 0x0000#16 → v.getLsbD 15 = false → flag v = 1#16)

/-- R23: `x[i] <- v` stores v in Ri and sets COND to flag(v); R24: `link(v)` stores v in R7 and leaves COND unchanged,
unless `LINK_SETS_COND` is true (D6). A read returns the stored word (R22). -/
def Obligations.RegisterWritesAndTheLinkWrite : Prop :=
  (∀ (s : State) (r : Reg) (v : Word), (s.setReg r v).reg r = v ∧ (s.setReg r v).cond = flag v ∧
    OnlyReg r s (s.setReg r v)) ∧
  ∀ (s : State) (v : Word), (s.link v).reg 7#3 = v ∧ OnlyReg 7#3 s (s.link v) ∧
    (s.link v).cond = if s.cfg.linkSetsCond then flag v else s.cond

/-! ## Operate instructions -/

/-- R110: ADD, register form: DR := SR1 + SR2 modulo 2^16, COND := flag(result), nothing else changes. -/
def Obligations.AddRegisterResult : Prop :=
  ∀ (dr sr1 sr2 : Reg) (s : State), ∃ t, exec (.addReg dr sr1 sr2) s = .next t ∧
    t.reg dr = s.reg sr1 + s.reg sr2 ∧ t.cond = flag (s.reg sr1 + s.reg sr2) ∧ OnlyReg dr s t

/-- R111: ADD, immediate form: DR := SR1 + sext(imm5) modulo 2^16, COND := flag(result), nothing else changes. -/
def Obligations.AddImmediateResult : Prop :=
  ∀ (dr sr1 : Reg) (imm5 : BitVec 5) (s : State), ∃ t, exec (.addImm dr sr1 imm5) s = .next t ∧
    t.reg dr = s.reg sr1 + imm5.signExtend 16 ∧ t.cond = flag (s.reg sr1 + imm5.signExtend 16) ∧ OnlyReg dr s t

/-- R113: AND, register form: DR := SR1 & SR2, COND := flag(result), nothing else changes. -/
def Obligations.AndRegisterResult : Prop :=
  ∀ (dr sr1 sr2 : Reg) (s : State), ∃ t, exec (.andReg dr sr1 sr2) s = .next t ∧
    t.reg dr = s.reg sr1 &&& s.reg sr2 ∧ t.cond = flag (s.reg sr1 &&& s.reg sr2) ∧ OnlyReg dr s t

/-- R114: AND, immediate form: DR := SR1 & sext(imm5), COND := flag(result), nothing else changes. -/
def Obligations.AndImmediateResult : Prop :=
  ∀ (dr sr1 : Reg) (imm5 : BitVec 5) (s : State), ∃ t, exec (.andImm dr sr1 imm5) s = .next t ∧
    t.reg dr = s.reg sr1 &&& imm5.signExtend 16 ∧ t.cond = flag (s.reg sr1 &&& imm5.signExtend 16) ∧ OnlyReg dr s t

/-- R116: NOT: DR := the 16-bit complement of SR, COND := flag(result), nothing else changes. -/
def Obligations.NotResult : Prop :=
  ∀ (dr sr : Reg) (s : State), ∃ t, exec (.not dr sr) s = .next t ∧
    t.reg dr = ~~~ s.reg sr ∧ t.cond = flag (~~~ s.reg sr) ∧ OnlyReg dr s t

/-- R112: ADD's result is the sum of the unsigned readings modulo 2^16 and the two's-complement sum of the signed
readings reduced to 16 bits; and R115: AND's is the bitwise AND. COND is ZRO, NEG or POS by the result alone. -/
def Obligations.AddAndAndLaws : Prop :=
  (∀ (dr sr1 sr2 : Reg) (s : State), ∃ t, exec (.addReg dr sr1 sr2) s = .next t ∧
    (t.reg dr).toNat = ((s.reg sr1).toNat + (s.reg sr2).toNat) % 65536 ∧
    (t.reg dr).toInt = ((s.reg sr1).toInt + (s.reg sr2).toInt).bmod 65536 ∧
    t.cond = (if t.reg dr = 0#16 then 2#16 else if (t.reg dr).toInt < 0 then 4#16 else 1#16) ∧ OnlyReg dr s t) ∧
  (∀ (dr sr1 : Reg) (imm5 : BitVec 5) (s : State), ∃ t, exec (.addImm dr sr1 imm5) s = .next t ∧
    (t.reg dr).toInt = ((s.reg sr1).toInt + imm5.toInt).bmod 65536 ∧
    t.cond = (if t.reg dr = 0#16 then 2#16 else if (t.reg dr).toInt < 0 then 4#16 else 1#16) ∧ OnlyReg dr s t) ∧
  ∀ (dr sr1 sr2 : Reg) (s : State), ∃ t, exec (.andReg dr sr1 sr2) s = .next t ∧
    (∀ k, (t.reg dr).getLsbD k = ((s.reg sr1).getLsbD k && (s.reg sr2).getLsbD k)) ∧
    t.cond = (if t.reg dr = 0#16 then 2#16 else if (t.reg dr).toInt < 0 then 4#16 else 1#16) ∧ OnlyReg dr s t

/-! ## Memory and the keyboard words -/

/-- R55: a write stores the value at its address, at every address, and changes nothing else. -/
def Obligations.MemoryWriteStoresUnconditionally : Prop :=
  ∀ (a v : Word) (s : State), (memWrite a v s).mem.read a = v ∧ OnlyWord a s (memWrite a v s)

/-- R56: every 16-bit value is a valid address: a read gives a word, or raises IoError at the keyboard status word; and
address computations wrap modulo 2^16. -/
def Obligations.EveryAddressIsReadable : Prop :=
  (∀ (a : Word) (s : State), (∃ v t, memRead a s = .done v t) ∨
    a = 0xFE00#16 ∧ ∃ t, memRead a s = .ended t ∧ t.run = .halted .ioError) ∧
  (∀ (s : State) (off9 : BitVec 9), ((s.pcRel9 off9).toNat : Int) = (s.pc.toNat + off9.toInt) % 65536) ∧
  (∀ (s : State) (off11 : BitVec 11), ((s.pcRel11 off11).toNat : Int) = (s.pc.toNat + off11.toInt) % 65536) ∧
  ∀ (s : State) (b : Reg) (off6 : BitVec 6),
    ((s.baseOff6 b off6).toNat : Int) = ((s.reg b).toNat + off6.toInt) % 65536

/-- R52 and R53 (with the spec's decisions D3, D4, D5), for both values of `KBSR_READY_WORD`: a read of any address but
0xFE00 is pure. A read of 0xFE00 polls: with nothing available KBSR becomes 0 and nothing is consumed; with a byte
available KBSR becomes the ready word, bit 15 of it set, and exactly that byte is consumed into KBDR; if its read
fails, IoError, KBSR the ready word and KBDR as before. -/
def Obligations.KeyboardStatusReadPolls : Prop :=
  (∀ (a : Word) (s : State), a ≠ 0xFE00#16 → memRead a s = .done (s.mem.read a) s) ∧
  ∀ (s : State) (ready : Word), (s.cfg.kbsrReadyWord = .cleared → ready = 0x8000#16) →
      (s.cfg.kbsrReadyWord = .keepsOld → ready = s.mem.read 0xFE00#16 ||| 0x8000#16) →
    ready.getLsbD 15 = true ∧
    (s.inputPoll.1 = false → ∃ t, memRead 0xFE00#16 s = .done 0x0000#16 t ∧ ReadFrame s t ∧ t.run = s.run ∧
      t.mem.read 0xFE00#16 = 0x0000#16 ∧ t.mem.read 0xFE02#16 = s.mem.read 0xFE02#16 ∧ KeptInput s t) ∧
    (∀ b, s.inputPoll.1 = true → s.nextAnswer = some (.byte b) →
      ∃ t, memRead 0xFE00#16 s = .done ready t ∧ ReadFrame s t ∧ t.run = s.run ∧
      t.mem.read 0xFE00#16 = ready ∧ t.mem.read 0xFE02#16 = b.setWidth 16 ∧ TookInput s t) ∧
    (s.inputPoll.1 = true → s.nextAnswer = some .fail →
      ∃ t, memRead 0xFE00#16 s = .ended t ∧ ReadFrame s t ∧ t.run = .halted .ioError ∧
      t.mem.read 0xFE00#16 = ready ∧ t.mem.read 0xFE02#16 = s.mem.read 0xFE02#16 ∧ TookInput s t)

/-- 60_exceptions.md R236 (the spec's decision D22): a poll answers true only when an answer is pending, and takes no
input by itself. -/
def Obligations.PollIsTrueOnlyWhenInputIsPending : Prop :=
  ∀ s : State, (s.inputPoll.1 = true → s.nextAnswer ≠ none) ∧ KeptInput s s.inputPoll.2

/-! ## Loads, LEA, stores -/

/-- R130: LD reads at pc + sext(PCoffset9). At any address but 0xFE00 it gives the stored word and changes only DR and
COND; at 0xFE00 the read polls first. -/
def Obligations.LdResult : Prop :=
  ∀ (dr : Reg) (off9 : BitVec 9) (s : State), ∃ t, exec (.ld dr off9) s = .next t ∧
    LoadsFrom dr (s.pc + off9.signExtend 16) s t ∧
    (s.pc + off9.signExtend 16 ≠ 0xFE00#16 →
      t.reg dr = s.mem.read (s.pc + off9.signExtend 16) ∧ t.cond = flag (t.reg dr) ∧ OnlyReg dr s t)

/-- R132: LDI reads the pointer at pc + sext(PCoffset9), then the word it points to, in this order; a failing first read
ends the instruction. -/
def Obligations.LdiResult : Prop :=
  ∀ (dr : Reg) (off9 : BitVec 9) (s : State), ∃ t, exec (.ldi dr off9) s = .next t ∧
    ((∃ p u, memRead (s.pc + off9.signExtend 16) s = .done p u ∧ ReadFrame s u ∧ LoadsFrom dr p u t) ∨
     (s.pc + off9.signExtend 16 = 0xFE00#16 ∧ memRead 0xFE00#16 s = .ended t ∧ t.run = .halted .ioError ∧
      ReadFrame s t)) ∧
    (s.pc + off9.signExtend 16 ≠ 0xFE00#16 → s.mem.read (s.pc + off9.signExtend 16) ≠ 0xFE00#16 →
      t.reg dr = s.mem.read (s.mem.read (s.pc + off9.signExtend 16)) ∧ t.cond = flag (t.reg dr) ∧ OnlyReg dr s t)

/-- R134: LDR reads at x[BaseR] + sext(offset6), the base read before DR is written. -/
def Obligations.LdrResult : Prop :=
  ∀ (dr b : Reg) (off6 : BitVec 6) (s : State), ∃ t, exec (.ldr dr b off6) s = .next t ∧
    LoadsFrom dr (s.reg b + off6.signExtend 16) s t ∧
    (s.reg b + off6.signExtend 16 ≠ 0xFE00#16 →
      t.reg dr = s.mem.read (s.reg b + off6.signExtend 16) ∧ t.cond = flag (t.reg dr) ∧ OnlyReg dr s t)

/-- R133: LDI with intermediate address X is LD from the address memory holds at X: the two instructions have the same
outcome, the LD executed where the pointer's read left off. -/
def Obligations.LdiIsLdFromThePointer : Prop :=
  ∀ (dr : Reg) (off9 off9' : BitVec 9) (s s1 : State) (p : Word), memRead (s.pcRel9 off9) s = .done p s1 →
    (s1.pcRel9 off9' = p → exec (.ldi dr off9) s = exec (.ld dr off9') s1) ∧
    ∀ v s2, memRead p s1 = .done v s2 → ∃ t, exec (.ldi dr off9) s = .next t ∧ t.reg dr = v ∧ t.cond = flag v

/-- R136: LEA: DR := pc + sext(PCoffset9), COND := flag(address); no memory access, so nothing else changes. -/
def Obligations.LeaResult : Prop :=
  ∀ (dr : Reg) (off9 : BitVec 9) (s : State), ∃ t, exec (.lea dr off9) s = .next t ∧
    t.reg dr = s.pc + off9.signExtend 16 ∧ t.cond = flag (s.pc + off9.signExtend 16) ∧ OnlyReg dr s t

/-- R138: ST writes SR at pc + sext(PCoffset9), 0xFE00 included; every other word, every register and COND stay. -/
def Obligations.StResult : Prop :=
  ∀ (sr : Reg) (off9 : BitVec 9) (s : State), ∃ t, exec (.st sr off9) s = .next t ∧
    t.mem.read (s.pc + off9.signExtend 16) = s.reg sr ∧ OnlyWord (s.pc + off9.signExtend 16) s t

/-- R140: STI reads the pointer at pc + sext(PCoffset9), a real read, then writes SR where it points; a failing pointer
read writes nothing. -/
def Obligations.StiResult : Prop :=
  ∀ (sr : Reg) (off9 : BitVec 9) (s : State), ∃ t, exec (.sti sr off9) s = .next t ∧
    ((∃ ea u, memRead (s.pc + off9.signExtend 16) s = .done ea u ∧ ReadFrame s u ∧ t.mem.read ea = s.reg sr ∧
        OnlyWord ea u t) ∨
     (s.pc + off9.signExtend 16 = 0xFE00#16 ∧ memRead 0xFE00#16 s = .ended t ∧ t.run = .halted .ioError ∧
      ReadFrame s t)) ∧
    (s.pc + off9.signExtend 16 ≠ 0xFE00#16 →
      t.mem.read (s.mem.read (s.pc + off9.signExtend 16)) = s.reg sr ∧
      OnlyWord (s.mem.read (s.pc + off9.signExtend 16)) s t)

/-- R142: STR writes SR at x[BaseR] + sext(offset6); every other word, every register and COND stay. -/
def Obligations.StrResult : Prop :=
  ∀ (sr b : Reg) (off6 : BitVec 6) (s : State), ∃ t, exec (.str sr b off6) s = .next t ∧
    t.mem.read (s.reg b + off6.signExtend 16) = s.reg sr ∧ OnlyWord (s.reg b + off6.signExtend 16) s t

/-- R65: a store to the next instruction's address, by ST, STI or STR, is what the very next step runs. -/
def Obligations.StoreIsSeenByTheNextFetch : Prop :=
  ∀ (i : Instr) (sr : Reg) (s t : State), storedReg i = some sr → storeAddress i s = some s.pc → s.run = .running →
    s.cfg.canonicalOnly = false → s.pc ≠ 0xFE00#16 → exec i s = .next t →
    step t = exec (decode (s.reg sr)) { t with pc := s.pc + 1#16 }

/-! ## Control transfer -/

/-- R161: BR goes to pc + sext(PCoffset9) when (COND & nzp) is not 0, and stays at pc otherwise; nothing else changes. -/
def Obligations.BranchResult : Prop :=
  ∀ (n z p : Bool) (off9 : BitVec 9) (s : State), ∃ t, exec (.br n z p off9) s = .next t ∧ OnlyPc s t ∧
    t.pc = if s.cond &&& (BitVec.ofBool n ++ BitVec.ofBool z ++ BitVec.ofBool p).setWidth 16 ≠ 0#16
      then s.pc + off9.signExtend 16 else s.pc

/-- R162: for the three values COND has, BR is taken exactly when n and NEG, z and ZRO, or p and POS; so 000 is never
taken and 111 always. -/
def Obligations.BranchConditionTable : Prop :=
  ∀ (n z p : Bool) (off9 : BitVec 9) (s : State), condLegal s.cond = true →
    ∃ t, exec (.br n z p off9) s = .next t ∧
      ((n = true ∧ s.cond = 4#16 ∨ z = true ∧ s.cond = 2#16 ∨ p = true ∧ s.cond = 1#16) →
        t.pc = s.pc + off9.signExtend 16) ∧
      (¬ (n = true ∧ s.cond = 4#16 ∨ z = true ∧ s.cond = 2#16 ∨ p = true ∧ s.cond = 1#16) → t.pc = s.pc) ∧
      (n = false → z = false → p = false → t.pc = s.pc) ∧
      (n = true → z = true → p = true → t.pc = s.pc + off9.signExtend 16)

/-- R163: JMP goes to the address in BaseR, RET to the address in R7; nothing else changes. -/
def Obligations.JumpAndReturnResult : Prop :=
  (∀ (b : Reg) (s : State), ∃ t, exec (.jmp b) s = .next t ∧ t.pc = s.reg b ∧ OnlyPc s t) ∧
  ∀ s : State, ∃ t, exec .ret s = .next t ∧ t.pc = s.reg 7#3 ∧ OnlyPc s t

/-- R166: JSR writes the return address to R7 and goes to pc + sext(PCoffset11); COND changes only under
`LINK_SETS_COND` (D6). -/
def Obligations.JsrResult : Prop :=
  ∀ (off11 : BitVec 11) (s : State), ∃ t, exec (.jsr off11) s = .next t ∧ t.reg 7#3 = s.pc ∧
    t.pc = s.pc + off11.signExtend 16 ∧ OnlyLink s t

/-- R167, R168: JSRR writes the return address to R7 and goes to the address in BaseR, read after the link write, so that
JSRR R7 goes to the instruction after itself; with `JSRR_READS_BASE_FIRST` true (D7) it goes to the old R7. -/
def Obligations.JsrrResult : Prop :=
  ∀ (b : Reg) (s : State), ∃ t, exec (.jsrr b) s = .next t ∧ t.reg 7#3 = s.pc ∧ OnlyLink s t ∧
    (b ≠ 7#3 → t.pc = s.reg b) ∧
    (b = 7#3 → s.cfg.jsrrReadsBaseFirst = false → t.pc = s.pc) ∧
    (b = 7#3 → s.cfg.jsrrReadsBaseFirst = true → t.pc = s.reg 7#3)

/-! ## TRAP -/

/-- R181, R226: every TRAP, whatever its vector and whatever the host answers, answers a next state with R7 the return
address, PC as it was and no register but R0 and R7 changed. That a GETC or IN without an answer, and a PUTS or PUTSP
that has read 65536 words and no zero, answers a next state inside the instruction is the MODEL'S CHOICE, log 14, 15. -/
def Obligations.EveryTrapLinksAndKeepsPc : Prop :=
  ∀ (vect : BitVec 8) (s : State), ∃ t, exec (.trap vect) s = .next t ∧ t.reg 7#3 = s.pc ∧ t.pc = s.pc ∧
    ∀ r, r ≠ 0#3 → r ≠ 7#3 → t.reg r = s.reg r

/-- R182 (the spec's decision D16): GETC puts the next input byte in R0 zero-extended; on Fail the run stops with
IoError, R0 and COND not written; without an answer it waits (log 15). No output; KBSR and KBDR are unchanged. -/
def Obligations.GetcResult : Prop :=
  ∀ s : State,
    (∀ b, s.nextAnswer = some (.byte b) → ∃ t, exec (.trap 0x20#8) s = .next t ∧ CharFrame b s t ∧
      TookInput s t ∧ t.output = s.output) ∧
    (s.nextAnswer = some .fail → ∃ t, exec (.trap 0x20#8) s = .next t ∧ TrapFrame s t ∧
      t.run = .halted .ioError ∧ TookInput s t ∧ t.output = s.output) ∧
    (s.nextAnswer = none → ∃ t, exec (.trap 0x20#8) s = .next t ∧ TrapFrame s t ∧ t.run = .waiting .getc ∧
      KeptInput s t ∧ t.output = s.output)

/-- R183 (the spec's decision D17): OUT writes the low byte of R0; if the host answers Fail the run stops with IoError,
no event written (the MODEL'S CHOICE, log 10). -/
def Obligations.OutResult : Prop :=
  ∀ s : State,
    (s.writeAnswer 0 = .ok → ∃ t, exec (.trap 0x21#8) s = .next t ∧ TrapFrame s t ∧
      t.run = s.run ∧ KeptInput s t ∧ t.output = s.output ++ [.byte ((s.reg 0#3).setWidth 8)]) ∧
    (s.writeAnswer 0 = .fail → ∃ t, exec (.trap 0x21#8) s = .next t ∧ TrapFrame s t ∧
      t.run = .halted .ioError ∧ KeptInput s t ∧ t.output = s.output)

/-- R184: PUTS writes the low byte of every word of the string at R0, in order, and not the zero word that ends it; no
register but R7 changes. (The string lies clear of 0xFE00, and the host accepts its bytes.) -/
def Obligations.PutsWritesTheString : Prop :=
  ∀ (s : State) (ws : List Word), stringAt s.mem (s.reg 0#3) ws → (∀ i, i < ws.length → s.writeAnswer i = .ok) →
    ∃ t, exec (.trap 0x22#8) s = .next t ∧ TrapFrame s t ∧ t.run = s.run ∧ KeptInput s t ∧
      t.output = s.output ++ ws.map fun w => .byte (w.setWidth 8)

/-- R186 (the spec's decision D15): PUTSP writes each word's low byte, then its high byte if that is nonzero. -/
def Obligations.PutspWritesThePackedString : Prop :=
  ∀ (s : State) (ws : List Word), stringAt s.mem (s.reg 0#3) ws →
    (∀ i, i < (ws.flatMap packedBytes).length → s.writeAnswer i = .ok) →
    ∃ t, exec (.trap 0x24#8) s = .next t ∧ TrapFrame s t ∧ t.run = s.run ∧ KeptInput s t ∧
      t.output = s.output ++ (ws.flatMap packedBytes).map .byte

/-- R184, R186, R222 (the spec's decisions D10, D13, D17), for PUTS and PUTSP. A string whose `n`-th write fails stops
the run with IoError, the bytes before it written and the failing one not (the latter the MODEL'S CHOICE, log 10). A
string at the keyboard status word polls: with nothing available it is empty; a failing poll stops the run with
IoError; with a byte available the word is the ready word (0x8000 by default), the byte goes to KBDR, and the string
goes on at 0xFE01, KBDR a word of it. -/
def Obligations.StringServicesStopOnAFailureAndPoll : Prop :=
  ∀ (k : StringService) (s : State),
    (∀ ws n, stringAt s.mem (s.reg 0#3) ws → n < (stringBytes k ws).length → (∀ i, i < n → s.writeAnswer i = .ok) →
      s.writeAnswer n = .fail → ∃ t, exec (.trap k.vector) s = .next t ∧ TrapFrame s t ∧
      t.run = .halted .ioError ∧ KeptInput s t ∧ t.output = s.output ++ ((stringBytes k ws).take n).map .byte) ∧
    (s.reg 0#3 = 0xFE00#16 → s.inputPoll.1 = false → ∃ t, exec (.trap k.vector) s = .next t ∧ t.run = s.run ∧
      KeptInput s t ∧ t.output = s.output ∧ t.mem.read 0xFE00#16 = 0x0000#16) ∧
    (s.reg 0#3 = 0xFE00#16 → s.inputPoll.1 = true → s.nextAnswer = some .fail →
      ∃ t, exec (.trap k.vector) s = .next t ∧ t.run = .halted .ioError ∧ TookInput s t ∧ t.output = s.output) ∧
    (∀ b ws, s.reg 0#3 = 0xFE00#16 → s.inputPoll.1 = true → s.nextAnswer = some (.byte b) →
      stringAt (s.mem.write 0xFE02#16 (b.setWidth 16)) 0xFE01#16 ws →
      (∀ i, i < (stringBytes k (readyWord s :: ws)).length → s.inputPoll.2.writeAnswer i = .ok) →
      ∃ t, exec (.trap k.vector) s = .next t ∧ t.run = s.run ∧ TookInput s t ∧
      t.output = s.output ++ (stringBytes k (readyWord s :: ws)).map .byte ∧
      t.mem.read 0xFE00#16 = readyWord s ∧ t.mem.read 0xFE02#16 = b.setWidth 16)

/-- R185 (the spec's decisions D11, D16, D17): IN writes the prompt, reads a byte, echoes it, and puts it in R0; R0 and
COND are not written when one of the three port operations fails, and a failing write leaves no event (log 10). Without
an answer it waits, the prompt written (log 15). -/
def Obligations.InResult : Prop :=
  ∀ s : State,
    (∀ b, s.writeAnswer 0 = .ok → s.nextAnswer = some (.byte b) → s.writeAnswer 1 = .ok →
      ∃ t, exec (.trap 0x23#8) s = .next t ∧ CharFrame b s t ∧ TookInput s t ∧
      t.output = s.output ++ [.notice .inPrompt, .byte b]) ∧
    (s.writeAnswer 0 = .fail → ∃ t, exec (.trap 0x23#8) s = .next t ∧ TrapFrame s t ∧
      t.run = .halted .ioError ∧ KeptInput s t ∧ t.output = s.output) ∧
    (s.writeAnswer 0 = .ok → s.nextAnswer = some .fail →
      ∃ t, exec (.trap 0x23#8) s = .next t ∧ TrapFrame s t ∧ t.run = .halted .ioError ∧ TookInput s t ∧
      t.output = s.output ++ [.notice .inPrompt]) ∧
    (∀ b, s.writeAnswer 0 = .ok → s.nextAnswer = some (.byte b) → s.writeAnswer 1 = .fail →
      ∃ t, exec (.trap 0x23#8) s = .next t ∧ TrapFrame s t ∧ t.run = .halted .ioError ∧ TookInput s t ∧
      t.output = s.output ++ [.notice .inPrompt]) ∧
    (s.writeAnswer 0 = .ok → s.nextAnswer = none →
      ∃ t, exec (.trap 0x23#8) s = .next t ∧ TrapFrame s t ∧ t.run = .waiting .inEcho ∧ KeptInput s t ∧
      t.output = s.output ++ [.notice .inPrompt])

/-- R187 (the spec's decision D11), R235: HALT writes the halt notice and the run ends normally; if that write fails it
stops with IoError instead (R225), which is an end in error, no event written (the MODEL'S CHOICE, log 10). -/
def Obligations.HaltResult : Prop :=
  ∀ s : State,
    (s.writeAnswer 0 = .ok → ∃ t, exec (.trap 0x25#8) s = .next t ∧ TrapFrame s t ∧
      t.run = .halted .haltTrap ∧ t.endedNormally = true ∧ KeptInput s t ∧
      t.output = s.output ++ [.notice .haltNotice]) ∧
    (s.writeAnswer 0 = .fail → ∃ t, exec (.trap 0x25#8) s = .next t ∧ TrapFrame s t ∧
      t.run = .halted .ioError ∧ t.endedInError = true ∧ KeptInput s t ∧ t.output = s.output)

/-- R188 (the spec's decision D12): a vector outside 0x20..0x25 stops the run with UnimplementedTrap(v), R7 already
written, nothing written at the output port. -/
def Obligations.UnimplementedVectorStopsTheRun : Prop :=
  ∀ (vect : BitVec 8) (s : State), vect.toNat < 0x20 ∨ 0x25 < vect.toNat →
    ∃ t, exec (.trap vect) s = .next t ∧ TrapFrame s t ∧ t.run = .halted (.unimplementedTrap vect) ∧
      t.endedInError = true ∧ KeptInput s t ∧ t.writes = s.writes ∧ t.output = s.output

/-- R30, R262 (the split over steps is the MODEL'S CHOICE, log 15): a waiting GETC or IN waits on while there is no
answer, what the host supplies is then the answer, and with an answer the service goes on as R182 and R185 say: R0 and
COND from the byte, for IN after its echo; IoError, neither written, on a failing read or echo. A PUTS or PUTSP that a
step left inside its string (log 14) goes on to the string's end. -/
def Obligations.WaitingEndsWithTheHostsAnswer : Prop :=
  (∀ (s : State) (w : WaitFor), s.run = .waiting w → s.nextAnswer = none → step s = .next s) ∧
  (∀ (s : State) (a : ReadAnswer), s.nextAnswer = none →
    (s.supplyInput a).nextAnswer = some a ∧ (s.supplyInput a).takeInput = s) ∧
  (∀ (s : State) (b : Byte), s.run = .waiting .getc → s.nextAnswer = some (.byte b) →
    step s = .next ({ s.takeInput with run := .running }.setReg 0#3 (b.setWidth 16))) ∧
  (∀ (s : State) (b : Byte), s.run = .waiting .inEcho → s.nextAnswer = some (.byte b) → s.writeAnswer 0 = .ok →
    ∃ t, step s = .next t ∧ t.run = .running ∧ t.reg 0#3 = b.setWidth 16 ∧ t.cond = flag (b.setWidth 16) ∧
      t.output = s.output ++ [.byte b] ∧ TookInput s t ∧ t.pc = s.pc ∧ t.mem = s.mem ∧
      ∀ r, r ≠ 0#3 → t.reg r = s.reg r) ∧
  (∀ (s : State) (b : Byte), s.run = .waiting .inEcho → s.nextAnswer = some (.byte b) → s.writeAnswer 0 = .fail →
    ∃ t, step s = .next t ∧ t.run = .halted .ioError ∧ (∀ r, t.reg r = s.reg r) ∧ t.cond = s.cond ∧
      t.output = s.output ∧ TookInput s t ∧ t.pc = s.pc ∧ t.mem = s.mem) ∧
  (∀ (s : State) (w : WaitFor), s.run = .waiting w → s.nextAnswer = some .fail →
    step s = .next { s.takeInput with run := .halted .ioError }) ∧
  ∀ (k : StringService) (a : Word) (s : State) (ws : List Word), s.run = .writing k a → stringAt s.mem a ws →
    (∀ i, i < (stringBytes k ws).length → s.writeAnswer i = .ok) → ∃ t, step s = .next t ∧ t.run = .running ∧
      (∀ r, t.reg r = s.reg r) ∧ t.cond = s.cond ∧ t.output = s.output ++ (stringBytes k ws).map .byte ∧
      KeptInput s t ∧ t.pc = s.pc ∧ t.mem = s.mem

/-! ## RTI and RES -/

/-- R210, R211 (with the spec's decision D12): RTI and RES stop the run with UnsupportedOpcode, recording their opcode,
and change nothing else. -/
def Obligations.UnsupportedOpcodesStopTheRun : Prop :=
  ∀ s : State,
    exec .rti s = .next { s with run := .halted (.unsupportedOpcode 0x8#4) } ∧
    exec .res s = .next { s with run := .halted (.unsupportedOpcode 0xD#4) }

/-! ## The image load -/

/-- R255: loading N words places them at origin, origin+1, …, origin+N-1 with wraparound; PC is the origin and the run
starts. The loader writes no general register and not COND, and no other word. -/
def Obligations.LoadPlacesTheImage : Prop :=
  ∀ (origin : Word) (ws : List Word) (s : State), ws.length ≤ 65536 →
    (load (.bytes (imageBytes (origin :: ws))) s).run = .running ∧
    (load (.bytes (imageBytes (origin :: ws))) s).pc = origin ∧
    (∀ i, (h : i < ws.length) →
      (load (.bytes (imageBytes (origin :: ws))) s).mem.read (origin + BitVec.ofNat 16 i) = ws[i]) ∧
    (∀ a, (∀ i, i < ws.length → a ≠ origin + BitVec.ofNat 16 i) →
      (load (.bytes (imageBytes (origin :: ws))) s).mem.read a = s.mem.read a) ∧
    (load (.bytes (imageBytes (origin :: ws))) s).regs = s.regs ∧
    (load (.bytes (imageBytes (origin :: ws))) s).cond = s.cond

/-- R253 (with the spec's decision D14): an unreadable image, one of fewer than 2 bytes, and one with an odd trailing
byte fail with ImageError, and no instruction is executed. -/
def Obligations.BadImageNeverStarts : Prop :=
  ∀ (s : State) (img : ImageStream),
    (img = .unreadable ∨ img = .bytes [] ∨ (∃ b, img = .bytes [b]) ∨
      ∃ origin ws b, img = .bytes (imageBytes (origin :: ws) ++ [b])) →
    (load img s).run = .imageError ∧ step (load img s) = .fault .imageError

/-! ## Whole-machine rules -/

/-- R229: every instruction may be executed at any time: in every state and for all operands `exec` answers a next
state. That GETC and IN without an answer answer one that is Waiting is the MODEL'S CHOICE, log 15; that PUTS and PUTSP
answer one inside the string after 65536 words and no zero is log 14. So a string with no zero word never ends (R184,
R186, R228; 93 U8): while keys come, every step answers a state again inside it, the output grown and PC as it was. -/
def Obligations.EveryInstructionCompletes : Prop :=
  (∀ (i : Instr) (s : State), ∃ t, exec i s = .next t ∧
    (t.run = s.run ∨ (∃ r, t.run = .halted r) ∨
      (s.nextAnswer = none ∧ (i = .trap 0x20#8 ∧ t.run = .waiting .getc ∨ i = .trap 0x23#8 ∧ t.run = .waiting .inEcho)) ∨
      ∃ k : StringService, i = .trap k.vector ∧ t.run = .writing k (s.reg 0#3))) ∧
  (∀ (k : StringService) (s : State), s.Unending → ∃ t, exec (.trap k.vector) s = .next t ∧
    t.run = .writing k (s.reg 0#3) ∧ t.Unending ∧ t.pc = s.pc ∧ s.output.length < t.output.length) ∧
  ∀ (k : StringService) (a : Word) (s : State), s.run = .writing k a → s.Unending → ∃ t, step s = .next t ∧
    t.run = .writing k a ∧ t.Unending ∧ t.pc = s.pc ∧ s.output.length < t.output.length

/-- R29 and the canonical form of memory (log 1): every step keeps COND one of POS, ZRO, NEG and memory in its form. -/
def Obligations.EveryStepKeepsTheInvariant : Prop :=
  ∀ s t : State, s.Inv → step s = .next t → t.Inv

/-- The invariant holds after construction (R250). -/
def Obligations.InvariantHoldsAtReset : Prop := State.reset.Inv

/-- R8, R32: no step takes back output or input: output only grows, the pending answers only shrink from the front; and
the parameters never change (R6; log 3). -/
def Obligations.EveryStepKeepsParametersAndPortOrder : Prop :=
  ∀ s t : State, step s = .next t → t.cfg = s.cfg ∧ s.output <+: t.output ∧ t.reads <:+ s.reads ∧ t.tail = s.tail

/-- R25: which instructions write which registers, and COND and PC. A flag-path destination is either written, COND
following it, or left alone, COND with it, when an IoError or a wait came first. -/
def Obligations.InstructionsWriteTheirRegistersOnly : Prop :=
  ∀ (i : Instr) (s t : State), s.cfg.linkSetsCond = false → exec i s = .next t →
    (∀ r, destReg i ≠ some r → (linksR7 i = true → r ≠ 7#3) → t.reg r = s.reg r) ∧
    (linksR7 i = true → t.reg 7#3 = s.pc) ∧
    (destReg i = none → t.cond = s.cond) ∧
    (∀ r, destReg i = some r → t.cond = flag (t.reg r) ∨
      t.cond = s.cond ∧ t.reg r = s.reg r ∧ (t.run = .halted .ioError ∨ ∃ w, t.run = .waiting w)) ∧
    (transfersControl i = false → t.pc = s.pc)

/-- R51, R53, R55: the only words an instruction changes are the one it stores to and the two keyboard words a poll
writes. -/
def Obligations.InstructionsChangeOnlyTheStoredWord : Prop :=
  ∀ (i : Instr) (s t : State), exec i s = .next t →
    ∀ a, a ≠ 0xFE00#16 → a ≠ 0xFE02#16 → storeAddress i s ≠ some a → t.mem.read a = s.mem.read a

/-- R220: what stops a run. Each halt reason is reached only by the instructions the table names. -/
def Obligations.RunsStopForTheListedReasonsOnly : Prop :=
  ∀ (i : Instr) (s t : State) (r : HaltReason), s.run = .running → exec i s = .next t → t.run = .halted r →
    match r with
    | .haltTrap => i = .trap 0x25#8
    | .unimplementedTrap v => i = .trap v ∧ (v.toNat < 0x20 ∨ 0x25 < v.toNat)
    | .unsupportedOpcode op => i = .rti ∧ op = 0x8#4 ∨ i = .res ∧ op = 0xD#4
    | .ioError => (∃ dr off9, i = .ld dr off9 ∨ i = .ldi dr off9 ∨ i = .sti dr off9) ∨
        (∃ dr b off6, i = .ldr dr b off6) ∨ ∃ v, i = .trap v ∧ 0x20 ≤ v.toNat ∧ v.toNat ≤ 0x25
end

