-- ==== Sys2Proof/Laws/Encoding.lean ====
section
/-! SUPPORT. Reading a field of a word written in one of the formats of 30_encoding.md rule R82 gives the field. -/

namespace Sys2Proof

/-! ## Fields of a concatenation -/

theorem extract_low {n m : Nat} (x : BitVec n) (y : BitVec m) {k l : Nat} (h : k + l ≤ m) :
    (x ++ y).extractLsb' k l = y.extractLsb' k l := by
  ext i hi
  simp [BitVec.getLsbD_append]
  omega

theorem extract_high {n m : Nat} (x : BitVec n) (y : BitVec m) {k l : Nat} (h : m ≤ k) :
    (x ++ y).extractLsb' k l = x.extractLsb' (k - m) l := by
  ext i hi
  have lt : ¬ k + i < m := by omega
  have e : k + i - m = k - m + i := by omega
  simp [BitVec.getLsbD_append, lt, e]

theorem bit_low {n m : Nat} (x : BitVec n) (y : BitVec m) {k : Nat} (h : k < m) :
    (x ++ y).getLsbD k = y.getLsbD k := by simp [BitVec.getLsbD_append, h]

theorem bit_high {n m : Nat} (x : BitVec n) (y : BitVec m) {k : Nat} (h : m ≤ k) :
    (x ++ y).getLsbD k = x.getLsbD (k - m) := by simp [BitVec.getLsbD_append, Nat.not_lt.mpr h]

/-! ## Base and tail: opcode, two registers, six bits -/

section
variable (op : BitVec 4) (r b : Reg) (t : BitVec 6)

@[simp] theorem opcodeField_base6 : opcodeField (formatBase6 op r b t) = op := by
  refine (extract_high (op ++ r ++ b) t (by decide)).trans ((extract_high (op ++ r) b (by decide)).trans ?_)
  exact (extract_high op r (by decide)).trans (by simp)

@[simp] theorem drField_base6 : drField (formatBase6 op r b t) = r := by
  refine (extract_high (op ++ r ++ b) t (by decide)).trans ((extract_high (op ++ r) b (by decide)).trans ?_)
  exact (extract_low op r (by decide)).trans (by simp)

@[simp] theorem baseField_base6 : baseField (formatBase6 op r b t) = b :=
  (extract_high (op ++ r ++ b) t (by decide)).trans ((extract_low (op ++ r) b (by decide)).trans (by simp))

/-- A field inside the tail is read from the tail. -/
theorem extract_base6 {k l : Nat} (h : k + l ≤ 6) :
    (formatBase6 op r b t).extractLsb' k l = t.extractLsb' k l := extract_low (op ++ r ++ b) t h

@[simp] theorem off6Field_base6 : off6Field (formatBase6 op r b t) = t :=
  (extract_base6 op r b t (by decide)).trans (by simp)

@[simp] theorem sr2Field_base6 : sr2Field (formatBase6 op r b t) = t.extractLsb' 0 3 :=
  extract_base6 op r b t (by decide)

@[simp] theorem imm5Field_base6 : imm5Field (formatBase6 op r b t) = t.extractLsb' 0 5 :=
  extract_base6 op r b t (by decide)

@[simp] theorem immMode_base6 : immMode (formatBase6 op r b t) = t[5] :=
  bit_low (op ++ r ++ b) t (by decide)

@[simp] theorem jsrMode_base6 : jsrMode (formatBase6 op r b t) = r[2] := by
  refine (bit_high (op ++ r ++ b) t (by decide)).trans ((bit_high (op ++ r) b (by decide)).trans ?_)
  exact bit_low op r (by decide)

/-- JSRR's ignored bits 10..9 are the low bits of the first register field. -/
theorem extract_jsrr : (formatBase6 op r b t).extractLsb' 9 2 = r.extractLsb' 0 2 := by
  refine (extract_high (op ++ r ++ b) t (by decide)).trans ((extract_high (op ++ r) b (by decide)).trans ?_)
  exact extract_low op r (by decide)

@[simp] theorem sr2_tailReg (sr2 : Reg) : (tailReg sr2).extractLsb' 0 3 = sr2 :=
  (extract_low (0#1 ++ 0#2) sr2 (by decide)).trans (by simp)

@[simp] theorem mode_tailReg (sr2 : Reg) : (tailReg sr2)[5] = false :=
  (bit_high (0#1 ++ 0#2) sr2 (by decide)).trans (by decide)

theorem ignored_tailReg (sr2 : Reg) : (tailReg sr2).extractLsb' 3 2 = 0#2 :=
  (extract_high (0#1 ++ 0#2) sr2 (by decide)).trans (by decide)

@[simp] theorem imm5_tailImm (imm5 : BitVec 5) : (tailImm imm5).extractLsb' 0 5 = imm5 :=
  (extract_low 1#1 imm5 (by decide)).trans (by simp)

@[simp] theorem mode_tailImm (imm5 : BitVec 5) : (tailImm imm5)[5] = true :=
  (bit_high 1#1 imm5 (by decide)).trans (by decide)

end

/-! ## Opcode, three bits, PCoffset9 -/

section
variable (op : BitVec 4) (r : BitVec 3) (o : BitVec 9)

@[simp] theorem opcodeField_pc9 : opcodeField (formatPc9 op r o) = op :=
  (extract_high (op ++ r) o (by decide)).trans ((extract_high op r (by decide)).trans (by simp))

@[simp] theorem drField_pc9 : drField (formatPc9 op r o) = r :=
  (extract_high (op ++ r) o (by decide)).trans ((extract_low op r (by decide)).trans (by simp))

@[simp] theorem off9Field_pc9 : off9Field (formatPc9 op r o) = o :=
  (extract_low (op ++ r) o (by decide)).trans (by simp)

/-- Bits 11, 10, 9 are the three bits under the opcode. -/
theorem bit_pc9 {k : Nat} (h : 9 ≤ k) (h' : k < 12) : (formatPc9 op r o).getLsbD k = r.getLsbD (k - 9) :=
  (bit_high (op ++ r) o h).trans (bit_low op r (by omega))

end

/-! ## Opcode and twelve bits -/

section
variable (op : BitVec 4) (x : BitVec 12)

@[simp] theorem opcodeField_low12 : opcodeField (formatLow12 op x) = op :=
  (extract_high op x (by decide)).trans (by simp)

theorem extract_low12 {k l : Nat} (h : k + l ≤ 12) : (formatLow12 op x).extractLsb' k l = x.extractLsb' k l :=
  extract_low op x h

@[simp] theorem jsrMode_low12 : jsrMode (formatLow12 op x) = x[11] := bit_low op x (by decide)

@[simp] theorem mode_jsr (o : BitVec 11) : (1#1 ++ o : BitVec 12)[11] = true :=
  (bit_high 1#1 o (by decide)).trans (by decide)

@[simp] theorem off11Field_jsr (o : BitVec 11) : off11Field (formatLow12 op (1#1 ++ o)) = o :=
  (extract_low12 op _ (by decide)).trans ((extract_low 1#1 o (by decide)).trans (by simp))

@[simp] theorem vectField_trap (v : BitVec 8) : vectField (formatLow12 op (0#4 ++ v)) = v :=
  (extract_low12 op _ (by decide)).trans ((extract_low 0#4 v (by decide)).trans (by simp))

end

/-! ## Words by their fields -/

/-- Every word is its opcode, two register fields and tail. -/
theorem base6_fields (w : Word) : formatBase6 (opcodeField w) (drField w) (baseField w) (off6Field w) = w := by
  have e : ∀ k l m : Nat, (w.extractLsb' (k+l) m ++ w.extractLsb' k l) = w.extractLsb' k (m + l) := by
    intro k l m
    ext i hi
    simp [BitVec.getElem_append]
    intro h
    congr 1
    omega
  have h1 : opcodeField w ++ drField w = w.extractLsb' 9 7 := e 9 3 4
  have h2 : (w.extractLsb' 9 7 : BitVec 7) ++ baseField w = w.extractLsb' 6 10 := e 6 3 7
  have h3 : (w.extractLsb' 6 10 : BitVec 10) ++ off6Field w = w.extractLsb' 0 16 := e 0 6 10
  simp only [formatBase6]
  rw [h1]
  exact ((congrArg (fun x : BitVec 10 => (x ++ off6Field w : BitVec 16)) h2).trans h3).trans (by simp)

/-- Masking acts field by field. -/
theorem base6_and (a a' : BitVec 4) (b b' c c' : BitVec 3) (d d' : BitVec 6) :
    formatBase6 a b c d &&& formatBase6 a' b' c' d' = formatBase6 (a &&& a') (b &&& b') (c &&& c') (d &&& d') := by
  unfold formatBase6
  rw [← BitVec.and_append, ← BitVec.and_append, ← BitVec.and_append]

/-- So does flipping bits. -/
theorem base6_xor (a a' : BitVec 4) (b b' c c' : BitVec 3) (d d' : BitVec 6) :
    formatBase6 a b c d ^^^ formatBase6 a' b' c' d' = formatBase6 (a ^^^ a') (b ^^^ b') (c ^^^ c') (d ^^^ d') := by
  unfold formatBase6
  rw [← BitVec.xor_append, ← BitVec.xor_append, ← BitVec.xor_append]

/-- Two words are equal when their fields are. -/
theorem base6_inj {a a' : BitVec 4} {b b' c c' : BitVec 3} {d d' : BitVec 6} :
    formatBase6 a b c d = formatBase6 a' b' c' d' ↔ a = a' ∧ b = b' ∧ c = c' ∧ d = d' := by
  constructor
  · intro h
    refine ⟨?_, ?_, ?_, ?_⟩
    · simpa using congrArg opcodeField h
    · simpa using congrArg drField h
    · simpa using congrArg baseField h
    · simpa using congrArg off6Field h
  · rintro ⟨rfl, rfl, rfl, rfl⟩; rfl

end Sys2Proof
end

