-- ==== Sys2Proof/Laws/Memory.lean ====
section
/-! SUPPORT. The laws of memory: read after write (20_memory.md rules R55, R62), and the canonical form, which every
write keeps and in which equal contents are equal data. -/

namespace Sys2Proof.Machine

/-! ## Lists of cells -/

theorem toNat_ne {a b : Word} (h : a ≠ b) : a.toNat ≠ b.toNat := fun e => h (BitVec.eq_of_toNat_eq e)

/-- The parts of the canonical form of a nonempty memory. -/
theorem Memory.wf_cons {k : Nat} {v : Word} {m : Memory} :
    Memory.wf ((k, v) :: m) = true ↔
      k < 65536 ∧ v ≠ Memory.unlisted ∧ (∀ c ∈ m, k < c.1) ∧ Memory.wf m = true := by
  simp [Memory.wf, and_assoc]

/-- An address below every cell reads as unlisted. -/
theorem Memory.read_below {m : Memory} {a : Word} (h : ∀ c ∈ m, a.toNat < c.1) : m.read a = Memory.unlisted := by
  induction m with
  | nil => rfl
  | cons c m ih =>
    obtain ⟨k, v⟩ := c
    have hk : k ≠ a.toNat := Nat.ne_of_gt (h _ (List.mem_cons_self ..))
    simp only [Memory.read, if_neg hk]
    exact ih fun c hc => h c (List.mem_cons_of_mem _ hc)

theorem Memory.read_put (m : Memory) (a b v : Word) :
    (m.put a v).read b = if b = a then v else m.read b := by
  induction m with
  | nil => by_cases h : b = a <;> simp [Memory.put, Memory.read, h, Ne.symm, toNat_ne]
  | cons c m ih =>
    obtain ⟨k, u⟩ := c
    by_cases hlt : k < a.toNat
    · simp only [Memory.put, if_pos hlt, Memory.read, ih]
      by_cases h : b = a
      · subst h; simp [Nat.ne_of_lt hlt]
      · simp [h]
    · by_cases hk : k = a.toNat
      · subst hk
        by_cases h : b = a
        · subst h; simp [Memory.put, Memory.read]
        · simp [Memory.put, Memory.read, h, (toNat_ne h).symm]
      · by_cases h : b = a
        · subst h; simp [Memory.put, Memory.read, hlt, hk]
        · simp [Memory.put, Memory.read, hlt, hk, h, (toNat_ne h).symm]

theorem Memory.read_erase (m : Memory) (a b : Word) :
    Memory.read (m.filter fun c => c.1 != a.toNat) b = if b = a then Memory.unlisted else m.read b := by
  induction m with
  | nil => simp [Memory.read]
  | cons c m ih =>
    obtain ⟨k, u⟩ := c
    by_cases hk : k = a.toNat
    · subst hk
      by_cases h : b = a
      · subst h; simpa [List.filter_cons, Memory.read] using ih
      · simpa [List.filter_cons, Memory.read, h, (toNat_ne h).symm] using ih
    · by_cases h : b = a
      · subst h; simpa [List.filter_cons, Memory.read, hk] using ih
      · simp only [h, if_false] at ih
        simp [Memory.read, hk, h, ih]

/-- What a write does to every address, in every state (20_memory.md R55, R62). -/
theorem Memory.read_write (m : Memory) (a b v : Word) : (m.write a v).read b = if b = a then v else m.read b := by
  by_cases hv : v = Memory.unlisted
  · rw [Memory.write, if_pos hv, Memory.read_erase, hv]
  · rw [Memory.write, if_neg hv, Memory.read_put]

/-- A write is read back (20_memory.md R55, R62). -/
@[simp] theorem Memory.read_write_same (m : Memory) (a v : Word) : (m.write a v).read a = v := by
  simp [Memory.read_write]

/-- A write leaves every other address alone (20_memory.md R55). -/
theorem Memory.read_write_other (m : Memory) {a b : Word} (v : Word) (h : b ≠ a) : (m.write a v).read b = m.read b := by
  simp [Memory.read_write, h]

/-- The cells of a written memory are old ones or the new one. -/
theorem Memory.mem_put {m : Memory} {a v : Word} {c : Cell} (hc : c ∈ m.put a v) : c ∈ m ∨ c = (a.toNat, v) := by
  induction m with
  | nil => exact Or.inr (List.mem_singleton.mp hc)
  | cons d m ih =>
    obtain ⟨k, u⟩ := d
    by_cases hlt : k < a.toNat
    · simp only [Memory.put, if_pos hlt, List.mem_cons] at hc ⊢
      exact hc.elim (Or.inl ∘ Or.inl) fun h => (ih h).imp_left Or.inr
    · by_cases hk : k = a.toNat
      · simp only [Memory.put, if_neg hlt, if_pos hk, List.mem_cons] at hc ⊢
        exact hc.elim (fun h => Or.inr (hk ▸ h)) (Or.inl ∘ Or.inr)
      · simp only [Memory.put, if_neg hlt, if_neg hk, List.mem_cons] at hc ⊢
        exact hc.elim Or.inr Or.inl

theorem Memory.wf_put {m : Memory} (h : m.wf = true) (a : Word) {v : Word} (hv : v ≠ Memory.unlisted) :
    (m.put a v).wf = true := by
  induction m with
  | nil => exact Memory.wf_cons.mpr ⟨a.isLt, hv, by simp, rfl⟩
  | cons c m ih =>
    obtain ⟨k, u⟩ := c
    obtain ⟨hk, hu, hm, hwf⟩ := Memory.wf_cons.mp h
    by_cases hlt : k < a.toNat
    · rw [Memory.put, if_pos hlt]
      exact Memory.wf_cons.mpr ⟨hk, hu, fun c hc => (Memory.mem_put hc).elim (hm c) fun e => e ▸ hlt, ih hwf⟩
    · by_cases hka : k = a.toNat
      · rw [Memory.put, if_neg hlt, if_pos hka]
        exact Memory.wf_cons.mpr ⟨hk, hv, hm, hwf⟩
      · rw [Memory.put, if_neg hlt, if_neg hka]
        have hlt' : a.toNat < k := by omega
        exact Memory.wf_cons.mpr ⟨a.isLt, hv, fun c hc => (List.mem_cons.mp hc).elim (fun e => e ▸ hlt')
          fun hc => hlt'.trans (hm c hc), h⟩

theorem Memory.wf_filter {m : Memory} (h : m.wf = true) (p : Cell → Bool) : Memory.wf (m.filter p) = true := by
  induction m with
  | nil => rfl
  | cons c m ih =>
    obtain ⟨k, u⟩ := c
    obtain ⟨hk, hu, hm, hwf⟩ := Memory.wf_cons.mp h
    rw [List.filter_cons]
    split
    · exact Memory.wf_cons.mpr ⟨hk, hu, fun c hc => hm c (List.mem_of_mem_filter hc), ih hwf⟩
    · exact ih hwf

/-- Every write keeps the canonical form. -/
theorem Memory.wf_write {m : Memory} (h : m.wf = true) (a v : Word) : (m.write a v).wf = true := by
  unfold Memory.write
  split
  · exact Memory.wf_filter h _
  · rename_i hv
    exact Memory.wf_put h a hv

/-- The memory after construction has the canonical form. -/
theorem Memory.wf_reset : Memory.wf State.reset.mem = true := rfl

/-- Every address reads zero after construction (70_reset_and_hazards.md R250). -/
theorem Memory.read_reset (a : Word) : Memory.read State.reset.mem a = 0#16 := rfl

/-- In canonical form, memories that read alike are equal. -/
theorem Memory.ext_read {m n : Memory} (hm : m.wf = true) (hn : n.wf = true) (h : ∀ a, m.read a = n.read a) : m = n := by
  induction m generalizing n with
  | nil =>
    cases n with
    | nil => rfl
    | cons d n =>
      obtain ⟨k, v⟩ := d
      obtain ⟨hk, hv, -, -⟩ := Memory.wf_cons.mp hn
      have := h (BitVec.ofNat 16 k)
      simp [Memory.read, Nat.mod_eq_of_lt hk] at this
      exact absurd this.symm hv
  | cons c m ih =>
    obtain ⟨k, v⟩ := c
    obtain ⟨hk, hv, hmk, hmw⟩ := Memory.wf_cons.mp hm
    have hka : (BitVec.ofNat 16 k).toNat = k := by simp [Nat.mod_eq_of_lt hk]
    cases n with
    | nil =>
      have := h (BitVec.ofNat 16 k)
      simp [Memory.read, Nat.mod_eq_of_lt hk] at this
      exact absurd this hv
    | cons d n =>
      obtain ⟨l, w⟩ := d
      obtain ⟨hl, hw, hnl, hnw⟩ := Memory.wf_cons.mp hn
      have hla : (BitVec.ofNat 16 l).toNat = l := by simp [Nat.mod_eq_of_lt hl]
      have hkl : k = l := by
        rcases Nat.lt_trichotomy k l with hlt | heq | hgt
        · have e := h (BitVec.ofNat 16 k)
          rw [Memory.read_below (m := (l, w) :: n)] at e
          · simp only [Memory.read, hka, if_true] at e
            exact absurd e hv
          · rintro c hc
            rw [hka]
            rcases List.mem_cons.mp hc with rfl | hc
            · exact hlt
            · exact hlt.trans (hnl c hc)
        · exact heq
        · have e := h (BitVec.ofNat 16 l)
          rw [Memory.read_below (m := (k, v) :: m)] at e
          · simp only [Memory.read, hla, if_true] at e
            exact absurd e.symm hw
          · rintro c hc
            rw [hla]
            rcases List.mem_cons.mp hc with rfl | hc
            · exact hgt
            · exact hgt.trans (hmk c hc)
      subst hkl
      have hvw : v = w := by
        have e := h (BitVec.ofNat 16 k)
        simpa only [Memory.read, hka, if_true] using e
      subst hvw
      congr 1
      refine ih hmw hnw fun a => ?_
      have e := h a
      by_cases ha : k = a.toNat
      · rw [Memory.read_below fun c hc => ha ▸ hmk c hc, Memory.read_below fun c hc => ha ▸ hnl c hc]
      · simpa only [Memory.read, if_neg ha] using e

end Sys2Proof.Machine
end

