-- ==== Sys2Proof/Laws/State.lean ====
section
/-! SUPPORT. What every update of the state does to every field: one lemma per field per update, and the register file's
read-after-write laws. No later proof unfolds a record update. -/

namespace Sys2Proof.Machine

@[simp] theorem putReg_cfg (s : State) (r : Reg) (v : Word) : (s.putReg r v).cfg = s.cfg := rfl
@[simp] theorem putReg_regs (s : State) (r : Reg) (v : Word) : (s.putReg r v).regs = s.regs.set r.toNat v r.isLt := rfl
@[simp] theorem putReg_pc (s : State) (r : Reg) (v : Word) : (s.putReg r v).pc = s.pc := rfl
@[simp] theorem putReg_cond (s : State) (r : Reg) (v : Word) : (s.putReg r v).cond = s.cond := rfl
@[simp] theorem putReg_mem (s : State) (r : Reg) (v : Word) : (s.putReg r v).mem = s.mem := rfl
@[simp] theorem putReg_run (s : State) (r : Reg) (v : Word) : (s.putReg r v).run = s.run := rfl
@[simp] theorem putReg_image (s : State) (r : Reg) (v : Word) : (s.putReg r v).image = s.image := rfl
@[simp] theorem putReg_reads (s : State) (r : Reg) (v : Word) : (s.putReg r v).reads = s.reads := rfl
@[simp] theorem putReg_tail (s : State) (r : Reg) (v : Word) : (s.putReg r v).tail = s.tail := rfl
@[simp] theorem putReg_taken (s : State) (r : Reg) (v : Word) : (s.putReg r v).taken = s.taken := rfl
@[simp] theorem putReg_polls (s : State) (r : Reg) (v : Word) : (s.putReg r v).polls = s.polls := rfl
@[simp] theorem putReg_writes (s : State) (r : Reg) (v : Word) : (s.putReg r v).writes = s.writes := rfl
@[simp] theorem putReg_drawn (s : State) (r : Reg) (v : Word) : (s.putReg r v).drawn = s.drawn := rfl
@[simp] theorem putReg_output (s : State) (r : Reg) (v : Word) : (s.putReg r v).output = s.output := rfl

@[simp] theorem setReg_cfg (s : State) (r : Reg) (v : Word) : (s.setReg r v).cfg = s.cfg := rfl
@[simp] theorem setReg_regs (s : State) (r : Reg) (v : Word) : (s.setReg r v).regs = s.regs.set r.toNat v r.isLt := rfl
@[simp] theorem setReg_pc (s : State) (r : Reg) (v : Word) : (s.setReg r v).pc = s.pc := rfl
@[simp] theorem setReg_cond (s : State) (r : Reg) (v : Word) : (s.setReg r v).cond = flag v := rfl
@[simp] theorem setReg_mem (s : State) (r : Reg) (v : Word) : (s.setReg r v).mem = s.mem := rfl
@[simp] theorem setReg_run (s : State) (r : Reg) (v : Word) : (s.setReg r v).run = s.run := rfl
@[simp] theorem setReg_image (s : State) (r : Reg) (v : Word) : (s.setReg r v).image = s.image := rfl
@[simp] theorem setReg_reads (s : State) (r : Reg) (v : Word) : (s.setReg r v).reads = s.reads := rfl
@[simp] theorem setReg_tail (s : State) (r : Reg) (v : Word) : (s.setReg r v).tail = s.tail := rfl
@[simp] theorem setReg_taken (s : State) (r : Reg) (v : Word) : (s.setReg r v).taken = s.taken := rfl
@[simp] theorem setReg_polls (s : State) (r : Reg) (v : Word) : (s.setReg r v).polls = s.polls := rfl
@[simp] theorem setReg_writes (s : State) (r : Reg) (v : Word) : (s.setReg r v).writes = s.writes := rfl
@[simp] theorem setReg_drawn (s : State) (r : Reg) (v : Word) : (s.setReg r v).drawn = s.drawn := rfl
@[simp] theorem setReg_output (s : State) (r : Reg) (v : Word) : (s.setReg r v).output = s.output := rfl

@[simp] theorem setPc_cfg (s : State) (a : Word) : (s.setPc a).cfg = s.cfg := rfl
@[simp] theorem setPc_regs (s : State) (a : Word) : (s.setPc a).regs = s.regs := rfl
@[simp] theorem setPc_pc (s : State) (a : Word) : (s.setPc a).pc = a := rfl
@[simp] theorem setPc_cond (s : State) (a : Word) : (s.setPc a).cond = s.cond := rfl
@[simp] theorem setPc_mem (s : State) (a : Word) : (s.setPc a).mem = s.mem := rfl
@[simp] theorem setPc_run (s : State) (a : Word) : (s.setPc a).run = s.run := rfl
@[simp] theorem setPc_image (s : State) (a : Word) : (s.setPc a).image = s.image := rfl
@[simp] theorem setPc_reads (s : State) (a : Word) : (s.setPc a).reads = s.reads := rfl
@[simp] theorem setPc_tail (s : State) (a : Word) : (s.setPc a).tail = s.tail := rfl
@[simp] theorem setPc_taken (s : State) (a : Word) : (s.setPc a).taken = s.taken := rfl
@[simp] theorem setPc_polls (s : State) (a : Word) : (s.setPc a).polls = s.polls := rfl
@[simp] theorem setPc_writes (s : State) (a : Word) : (s.setPc a).writes = s.writes := rfl
@[simp] theorem setPc_drawn (s : State) (a : Word) : (s.setPc a).drawn = s.drawn := rfl
@[simp] theorem setPc_output (s : State) (a : Word) : (s.setPc a).output = s.output := rfl

@[simp] theorem advance_cfg (s : State) : (s.advance).cfg = s.cfg := rfl
@[simp] theorem advance_regs (s : State) : (s.advance).regs = s.regs := rfl
@[simp] theorem advance_pc (s : State) : (s.advance).pc = s.pc + 1#16 := rfl
@[simp] theorem advance_cond (s : State) : (s.advance).cond = s.cond := rfl
@[simp] theorem advance_mem (s : State) : (s.advance).mem = s.mem := rfl
@[simp] theorem advance_run (s : State) : (s.advance).run = s.run := rfl
@[simp] theorem advance_image (s : State) : (s.advance).image = s.image := rfl
@[simp] theorem advance_reads (s : State) : (s.advance).reads = s.reads := rfl
@[simp] theorem advance_tail (s : State) : (s.advance).tail = s.tail := rfl
@[simp] theorem advance_taken (s : State) : (s.advance).taken = s.taken := rfl
@[simp] theorem advance_polls (s : State) : (s.advance).polls = s.polls := rfl
@[simp] theorem advance_writes (s : State) : (s.advance).writes = s.writes := rfl
@[simp] theorem advance_drawn (s : State) : (s.advance).drawn = s.drawn := rfl
@[simp] theorem advance_output (s : State) : (s.advance).output = s.output := rfl

@[simp] theorem memWrite_cfg (a v : Word) (s : State) : (memWrite a v s).cfg = s.cfg := rfl
@[simp] theorem memWrite_regs (a v : Word) (s : State) : (memWrite a v s).regs = s.regs := rfl
@[simp] theorem memWrite_pc (a v : Word) (s : State) : (memWrite a v s).pc = s.pc := rfl
@[simp] theorem memWrite_cond (a v : Word) (s : State) : (memWrite a v s).cond = s.cond := rfl
@[simp] theorem memWrite_mem (a v : Word) (s : State) : (memWrite a v s).mem = s.mem.write a v := rfl
@[simp] theorem memWrite_run (a v : Word) (s : State) : (memWrite a v s).run = s.run := rfl
@[simp] theorem memWrite_image (a v : Word) (s : State) : (memWrite a v s).image = s.image := rfl
@[simp] theorem memWrite_reads (a v : Word) (s : State) : (memWrite a v s).reads = s.reads := rfl
@[simp] theorem memWrite_tail (a v : Word) (s : State) : (memWrite a v s).tail = s.tail := rfl
@[simp] theorem memWrite_taken (a v : Word) (s : State) : (memWrite a v s).taken = s.taken := rfl
@[simp] theorem memWrite_polls (a v : Word) (s : State) : (memWrite a v s).polls = s.polls := rfl
@[simp] theorem memWrite_writes (a v : Word) (s : State) : (memWrite a v s).writes = s.writes := rfl
@[simp] theorem memWrite_drawn (a v : Word) (s : State) : (memWrite a v s).drawn = s.drawn := rfl
@[simp] theorem memWrite_output (a v : Word) (s : State) : (memWrite a v s).output = s.output := rfl

@[simp] theorem supplyInput_cfg (s : State) (x : ReadAnswer) : (s.supplyInput x).cfg = s.cfg := rfl
@[simp] theorem supplyInput_regs (s : State) (x : ReadAnswer) : (s.supplyInput x).regs = s.regs := rfl
@[simp] theorem supplyInput_pc (s : State) (x : ReadAnswer) : (s.supplyInput x).pc = s.pc := rfl
@[simp] theorem supplyInput_cond (s : State) (x : ReadAnswer) : (s.supplyInput x).cond = s.cond := rfl
@[simp] theorem supplyInput_mem (s : State) (x : ReadAnswer) : (s.supplyInput x).mem = s.mem := rfl
@[simp] theorem supplyInput_run (s : State) (x : ReadAnswer) : (s.supplyInput x).run = s.run := rfl
@[simp] theorem supplyInput_image (s : State) (x : ReadAnswer) : (s.supplyInput x).image = s.image := rfl
@[simp] theorem supplyInput_reads (s : State) (x : ReadAnswer) : (s.supplyInput x).reads = s.reads ++ [x] := rfl
@[simp] theorem supplyInput_tail (s : State) (x : ReadAnswer) : (s.supplyInput x).tail = s.tail := rfl
@[simp] theorem supplyInput_taken (s : State) (x : ReadAnswer) : (s.supplyInput x).taken = s.taken := rfl
@[simp] theorem supplyInput_polls (s : State) (x : ReadAnswer) : (s.supplyInput x).polls = s.polls := rfl
@[simp] theorem supplyInput_writes (s : State) (x : ReadAnswer) : (s.supplyInput x).writes = s.writes := rfl
@[simp] theorem supplyInput_drawn (s : State) (x : ReadAnswer) : (s.supplyInput x).drawn = s.drawn := rfl
@[simp] theorem supplyInput_output (s : State) (x : ReadAnswer) : (s.supplyInput x).output = s.output := rfl

@[simp] theorem presentImage_cfg (s : State) (img : ImageStream) : (s.presentImage img).cfg = s.cfg := rfl
@[simp] theorem presentImage_regs (s : State) (img : ImageStream) : (s.presentImage img).regs = s.regs := rfl
@[simp] theorem presentImage_pc (s : State) (img : ImageStream) : (s.presentImage img).pc = s.pc := rfl
@[simp] theorem presentImage_cond (s : State) (img : ImageStream) : (s.presentImage img).cond = s.cond := rfl
@[simp] theorem presentImage_mem (s : State) (img : ImageStream) : (s.presentImage img).mem = s.mem := rfl
@[simp] theorem presentImage_run (s : State) (img : ImageStream) : (s.presentImage img).run = s.run := rfl
@[simp] theorem presentImage_image (s : State) (img : ImageStream) : (s.presentImage img).image = some img := rfl
@[simp] theorem presentImage_reads (s : State) (img : ImageStream) : (s.presentImage img).reads = s.reads := rfl
@[simp] theorem presentImage_tail (s : State) (img : ImageStream) : (s.presentImage img).tail = s.tail := rfl
@[simp] theorem presentImage_taken (s : State) (img : ImageStream) : (s.presentImage img).taken = s.taken := rfl
@[simp] theorem presentImage_polls (s : State) (img : ImageStream) : (s.presentImage img).polls = s.polls := rfl
@[simp] theorem presentImage_writes (s : State) (img : ImageStream) : (s.presentImage img).writes = s.writes := rfl
@[simp] theorem presentImage_drawn (s : State) (img : ImageStream) : (s.presentImage img).drawn = s.drawn := rfl
@[simp] theorem presentImage_output (s : State) (img : ImageStream) : (s.presentImage img).output = s.output := rfl

/-! Taking an input answer touches the input port only (60_exceptions.md R236). -/

@[simp] theorem takeInput_cfg (s : State) : s.takeInput.cfg = s.cfg := by
  unfold State.takeInput; split <;> rfl

@[simp] theorem takeInput_regs (s : State) : s.takeInput.regs = s.regs := by
  unfold State.takeInput; split <;> rfl

@[simp] theorem takeInput_pc (s : State) : s.takeInput.pc = s.pc := by
  unfold State.takeInput; split <;> rfl

@[simp] theorem takeInput_cond (s : State) : s.takeInput.cond = s.cond := by
  unfold State.takeInput; split <;> rfl

@[simp] theorem takeInput_mem (s : State) : s.takeInput.mem = s.mem := by
  unfold State.takeInput; split <;> rfl

@[simp] theorem takeInput_run (s : State) : s.takeInput.run = s.run := by
  unfold State.takeInput; split <;> rfl

@[simp] theorem takeInput_image (s : State) : s.takeInput.image = s.image := by
  unfold State.takeInput; split <;> rfl

@[simp] theorem takeInput_tail (s : State) : s.takeInput.tail = s.tail := by
  unfold State.takeInput; split <;> rfl

@[simp] theorem takeInput_polls (s : State) : s.takeInput.polls = s.polls := by
  unfold State.takeInput; split <;> rfl

@[simp] theorem takeInput_writes (s : State) : s.takeInput.writes = s.writes := by
  unfold State.takeInput; split <;> rfl

@[simp] theorem takeInput_drawn (s : State) : s.takeInput.drawn = s.drawn := by
  unfold State.takeInput; split <;> rfl

@[simp] theorem takeInput_output (s : State) : s.takeInput.output = s.output := by
  unfold State.takeInput; split <;> rfl

theorem takeInput_cons {s : State} {x : ReadAnswer} {more : List ReadAnswer} (h : s.reads = x :: more) :
    s.takeInput = { s with reads := more } := by
  unfold State.takeInput; rw [h]

theorem takeInput_nil {s : State} (h : s.reads = []) : s.takeInput = { s with taken := s.taken + 1 } := by
  unfold State.takeInput; rw [h]

/-! The next answer depends on the input port only. -/

theorem nextAnswer_congr {s t : State} (hr : t.reads = s.reads) (ht : t.tail = s.tail) (hk : t.taken = s.taken) :
    t.nextAnswer = s.nextAnswer := by
  unfold State.nextAnswer; rw [hr, ht, hk]

theorem nextAnswer_cons {s : State} {x : ReadAnswer} {more : List ReadAnswer} (h : s.reads = x :: more) :
    s.nextAnswer = some x := by
  unfold State.nextAnswer; rw [h]

/-! The link write touches R7 only, and COND only under `LINK_SETS_COND` (10_state.md R24). -/

@[simp] theorem link_cfg (s : State) (v : Word) : (s.link v).cfg = s.cfg := by
  unfold State.link; split <;> rfl

@[simp] theorem link_regs (s : State) (v : Word) : (s.link v).regs = s.regs.set (7#3).toNat v (7#3).isLt := by
  unfold State.link; split <;> rfl

@[simp] theorem link_pc (s : State) (v : Word) : (s.link v).pc = s.pc := by
  unfold State.link; split <;> rfl

@[simp] theorem link_cond (s : State) (v : Word) : (s.link v).cond = if s.cfg.linkSetsCond then flag v else s.cond := by
  unfold State.link; split <;> rfl

@[simp] theorem link_mem (s : State) (v : Word) : (s.link v).mem = s.mem := by
  unfold State.link; split <;> rfl

@[simp] theorem link_run (s : State) (v : Word) : (s.link v).run = s.run := by
  unfold State.link; split <;> rfl

@[simp] theorem link_image (s : State) (v : Word) : (s.link v).image = s.image := by
  unfold State.link; split <;> rfl

@[simp] theorem link_reads (s : State) (v : Word) : (s.link v).reads = s.reads := by
  unfold State.link; split <;> rfl

@[simp] theorem link_tail (s : State) (v : Word) : (s.link v).tail = s.tail := by
  unfold State.link; split <;> rfl

@[simp] theorem link_taken (s : State) (v : Word) : (s.link v).taken = s.taken := by
  unfold State.link; split <;> rfl

@[simp] theorem link_polls (s : State) (v : Word) : (s.link v).polls = s.polls := by
  unfold State.link; split <;> rfl

@[simp] theorem link_writes (s : State) (v : Word) : (s.link v).writes = s.writes := by
  unfold State.link; split <;> rfl

@[simp] theorem link_drawn (s : State) (v : Word) : (s.link v).drawn = s.drawn := by
  unfold State.link; split <;> rfl

@[simp] theorem link_output (s : State) (v : Word) : (s.link v).output = s.output := by
  unfold State.link; split <;> rfl

/-! ## The register file -/

theorem reg_eq_of_regs {s t : State} (h : t.regs = s.regs) (r : Reg) : t.reg r = s.reg r := by
  simp [State.reg, h]

@[simp] theorem reg_putReg_same (s : State) (r : Reg) (v : Word) : (s.putReg r v).reg r = v := by
  simp [State.reg]

theorem reg_putReg (s : State) (r q : Reg) (v : Word) : (s.putReg r v).reg q = if q = r then v else s.reg q := by
  by_cases h : q = r
  · subst h; simp
  · have : r.toNat ≠ q.toNat := fun e => h (BitVec.eq_of_toNat_eq e.symm)
    simp [State.reg, h, this]

theorem reg_setReg (s : State) (r q : Reg) (v : Word) : (s.setReg r v).reg q = if q = r then v else s.reg q :=
  reg_putReg s r q v

@[simp] theorem reg_setReg_same (s : State) (r : Reg) (v : Word) : (s.setReg r v).reg r = v := reg_putReg_same s r v

theorem reg_link (s : State) (q : Reg) (v : Word) : (s.link v).reg q = if q = 7#3 then v else s.reg q := by
  rw [reg_eq_of_regs (t := s.link v) (s := s.putReg 7#3 v) (by simp)]
  exact reg_putReg s 7#3 q v

@[simp] theorem reg_link_same (s : State) (v : Word) : (s.link v).reg 7#3 = v := by simp [reg_link]

@[simp] theorem reg_setPc (s : State) (a : Word) (q : Reg) : (s.setPc a).reg q = s.reg q := rfl

@[simp] theorem reg_advance (s : State) (q : Reg) : s.advance.reg q = s.reg q := rfl

@[simp] theorem reg_memWrite (a v : Word) (s : State) (q : Reg) : (memWrite a v s).reg q = s.reg q := rfl

/-- Every register is zero after construction (70_reset_and_hazards.md R250). -/
theorem reg_reset (q : Reg) : State.reset.reg q = 0#16 := by
  simp [State.reg, State.reset]

end Sys2Proof.Machine
end

