-- ==== Sys2Proof/Laws/Ops.lean ====
section
/-! SUPPORT. One lemma per shared operation, saying once everything it can do; callers cite it and do not unfold. -/

namespace Sys2Proof.Machine

/-! ## How an operation ends -/

/-- Wherever the operation leaves the machine, `P` holds there. -/
def Op.Leaves {α : Type} (P : State → Prop) : Op α → Prop
  | .done _ s => P s
  | .ended s => P s

theorem Op.Leaves.mono {α : Type} {P Q : State → Prop} {x : Op α} (hx : x.Leaves P) (h : ∀ s, P s → Q s) :
    x.Leaves Q := by
  cases x with
  | done a s => exact h s hx
  | ended s => exact h s hx

/-- Sequencing: the second operation starts where the first was left. -/
theorem Op.Leaves.andThen {α β : Type} {P Q : State → Prop} {x : Op α} {f : α → State → Op β} (hx : x.Leaves Q)
    (hf : ∀ a s, Q s → (f a s).Leaves P) (hq : ∀ s, Q s → P s) : (x.andThen f).Leaves P := by
  cases x with
  | done a s => exact hf a s hx
  | ended s => exact hq s hx

/-- What holds wherever the effects leave the machine holds of the instruction's next state. -/
theorem Op.Leaves.outcome {α : Type} {P : State → Prop} {x : Op α} (hx : x.Leaves P) {t : State}
    (h : x.outcome = .next t) : P t := by
  cases x with
  | done a s => exact Host.Outcome.next.inj h ▸ hx
  | ended s => exact Host.Outcome.next.inj h ▸ hx

/-- However its effects end, an instruction made of them answers a next state. -/
theorem Op.outcome_next {α : Type} (x : Op α) : ∃ t, x.outcome = .next t := by
  cases x with
  | done a s => exact ⟨s, rfl⟩
  | ended s => exact ⟨s, rfl⟩

/-- The instruction's next state is where its effects leave the machine. -/
theorem Op.leaves_outcome {α : Type} {P : State → Prop} {x : Op α} (h : ∀ t, x.outcome = .next t → P t) :
    x.Leaves P := by
  cases x with
  | done a s => exact h s rfl
  | ended s => exact h s rfl

@[simp] theorem Op.andThen_done {α β : Type} (a : α) (s : State) (f : α → State → Op β) :
    (Op.done a s).andThen f = f a s := rfl

@[simp] theorem Op.andThen_ended {α β : Type} (s : State) (f : α → State → Op β) :
    (Op.ended s : Op α).andThen f = .ended s := rfl

@[simp] theorem Op.outcome_done {α : Type} (a : α) (s : State) : (Op.done a s).outcome = .next s := rfl

@[simp] theorem Op.outcome_ended {α : Type} (s : State) : (Op.ended s : Op α).outcome = .next s := rfl

/-! ## The frames compose -/

theorem PortFrame.refl (s : State) : PortFrame s s :=
  ⟨rfl, rfl, rfl, rfl, rfl, fun _ _ _ => rfl, id, List.suffix_refl _, rfl, Nat.le_refl _, List.prefix_refl _⟩

theorem PortFrame.trans {s t u : State} (h : PortFrame s t) (k : PortFrame t u) : PortFrame s u where
  cfg := k.cfg.trans h.cfg
  regs := k.regs.trans h.regs
  pc := k.pc.trans h.pc
  cond := k.cond.trans h.cond
  image := k.image.trans h.image
  read a h1 h2 := (k.read a h1 h2).trans (h.read a h1 h2)
  wf := k.wf ∘ h.wf
  reads := k.reads.trans h.reads
  tail := k.tail.trans h.tail
  taken := h.taken.trans k.taken
  output := h.output.trans k.output

theorem PortFrame.reg {s t : State} (h : PortFrame s t) (r : Reg) : t.reg r = s.reg r := reg_eq_of_regs h.regs r

theorem PortFrame.setRun {s t : State} (h : PortFrame s t) (r : RunState) : PortFrame s { t with run := r } :=
  ⟨h.cfg, h.regs, h.pc, h.cond, h.image, h.read, h.wf, h.reads, h.tail, h.taken, h.output⟩

theorem ReadFrame.refl (s : State) : ReadFrame s s := ⟨PortFrame.refl s, rfl, rfl⟩

theorem ReadFrame.trans {s t u : State} (h : ReadFrame s t) (k : ReadFrame t u) : ReadFrame s u :=
  ⟨h.toPortFrame.trans k.toPortFrame, k.writes.trans h.writes, k.outputSame.trans h.outputSame⟩

/-! ## The input port -/

/-- The poll: false and no draw when nothing is pending, the host's draw otherwise (60_exceptions.md R236). -/
theorem inputPoll_none {s : State} (h : s.nextAnswer = none) : s.inputPoll = (false, s) := by
  unfold State.inputPoll; rw [h]

theorem inputPoll_some {s : State} {x : ReadAnswer} (h : s.nextAnswer = some x) :
    s.inputPoll = ((s.polls.draw (Config.freePoll s.drawn)).1,
      { s with polls := (s.polls.draw (Config.freePoll s.drawn)).2, drawn := s.drawn + 1 }) := by
  unfold State.inputPoll; rw [h]

/-- A poll that answers true has an answer pending. -/
theorem nextAnswer_of_inputPoll {s : State} (h : s.inputPoll.1 = true) : s.nextAnswer ≠ none := by
  intro hr
  rw [inputPoll_none hr] at h
  cases h

/-- A poll changes its own draws only. -/
theorem inputPoll_rest (s : State) :
    s.inputPoll.2 = { s with polls := s.inputPoll.2.polls, drawn := s.inputPoll.2.drawn } := by
  unfold State.inputPoll; split <;> rfl

theorem inputPoll_frame (s : State) : ReadFrame s s.inputPoll.2 := by
  rw [inputPoll_rest]
  exact ⟨⟨rfl, rfl, rfl, rfl, rfl, fun _ _ _ => rfl, id, List.suffix_refl _, rfl, Nat.le_refl _, List.prefix_refl _⟩,
    rfl, rfl⟩

@[simp] theorem inputPoll_mem (s : State) : s.inputPoll.2.mem = s.mem := by rw [inputPoll_rest]

@[simp] theorem inputPoll_run (s : State) : s.inputPoll.2.run = s.run := by rw [inputPoll_rest]

@[simp] theorem inputPoll_reads (s : State) : s.inputPoll.2.reads = s.reads := by rw [inputPoll_rest]

@[simp] theorem inputPoll_taken (s : State) : s.inputPoll.2.taken = s.taken := by rw [inputPoll_rest]

@[simp] theorem inputPoll_tail (s : State) : s.inputPoll.2.tail = s.tail := by rw [inputPoll_rest]

/-- What a poll finds depends on the input port and the draws only. -/
theorem inputPoll_congr {s t : State} (ha : t.nextAnswer = s.nextAnswer) (hp : t.polls = s.polls)
    (hd : t.drawn = s.drawn) : t.inputPoll.1 = s.inputPoll.1 ∧ t.inputPoll.2.polls = s.inputPoll.2.polls ∧
      t.inputPoll.2.drawn = s.inputPoll.2.drawn := by
  unfold State.inputPoll
  rw [ha, hp, hd]
  split
  · exact ⟨rfl, hp, hd⟩
  · exact ⟨rfl, rfl, rfl⟩

theorem takeInput_frame (s : State) : ReadFrame s s.takeInput := by
  unfold State.takeInput
  split
  · rename_i h
    exact ⟨⟨rfl, rfl, rfl, rfl, rfl, fun _ _ _ => rfl, id, h ▸ List.suffix_cons _ _, rfl, Nat.le_refl _,
      List.prefix_refl _⟩, rfl, rfl⟩
  · exact ⟨⟨rfl, rfl, rfl, rfl, rfl, fun _ _ _ => rfl, id, List.suffix_refl _, rfl, Nat.le_succ _,
      List.prefix_refl _⟩, rfl, rfl⟩

/-- `InputRead` case by case: it waits, gives a byte, or fails (00_scope.md R7(b), 10_state.md R30). -/
theorem inputRead_cases (w : WaitFor) (s : State) :
    (s.nextAnswer = none ∧ inputRead w s = .ended { s with run := .waiting w }) ∨
    (∃ b, s.nextAnswer = some (.byte b) ∧ inputRead w s = .done b s.takeInput) ∨
    (s.nextAnswer = some .fail ∧ inputRead w s = .ended { s.takeInput with run := .halted .ioError }) := by
  unfold inputRead
  rcases h : s.nextAnswer with _ | (b | _)
  · exact Or.inl ⟨rfl, rfl⟩
  · exact Or.inr (Or.inl ⟨b, rfl, rfl⟩)
  · exact Or.inr (Or.inr ⟨rfl, rfl⟩)

theorem ReadFrame.setRun {s t : State} (h : ReadFrame s t) (r : RunState) : ReadFrame s { t with run := r } :=
  ⟨h.toPortFrame.setRun r, h.writes, h.outputSame⟩

theorem inputRead_leaves (w : WaitFor) (s : State) : (inputRead w s).Leaves (ReadFrame s) := by
  rcases inputRead_cases w s with ⟨-, h⟩ | ⟨b, -, h⟩ | ⟨-, h⟩ <;> rw [h]
  · exact (ReadFrame.refl s).setRun _
  · exact takeInput_frame s
  · exact (takeInput_frame s).setRun _

/-! ## The output port -/

/-- The answer a write draws is the first of the coming ones, and those after it follow. -/
theorem draw_writes (s : State) : (s.writes.draw (Config.freeWrite s.drawn)).1 = s.writeAnswer 0 := by
  unfold Draws.draw State.writeAnswer
  cases s.writes.script <;> rfl

/-- The state a write leaves, its answer drawn. -/
def State.drawWrite (s : State) : State :=
  { s with writes := (s.writes.draw (Config.freeWrite s.drawn)).2, drawn := s.drawn + 1 }

theorem writeAnswer_drawWrite (s : State) (i : Nat) : s.drawWrite.writeAnswer i = s.writeAnswer (i + 1) := by
  unfold State.drawWrite State.writeAnswer Draws.draw
  cases h : s.writes.script with
  | nil => simp [h, Nat.add_assoc, Nat.add_comm 1 i]
  | cons a more => simp [Nat.add_assoc, Nat.add_comm 1 i]

/-- The coming answers depend on the output port's draws only. -/
theorem writeAnswer_congr {s t : State} (hw : t.writes = s.writes) (hd : t.drawn = s.drawn) (i : Nat) :
    t.writeAnswer i = s.writeAnswer i := by
  unfold State.writeAnswer; rw [hw, hd]

/-- A write the host accepts: the event is put out and the run goes on. -/
theorem emit_ok {e : OutEvent} {s : State} (h : s.writeAnswer 0 = .ok) :
    emit e s = .done () { s.drawWrite with output := s.output ++ [e] } := by
  rw [← draw_writes] at h; simp [emit, h, State.drawWrite]

/-- A write the host fails: nothing is put out and the run stops with IoError. -/
theorem emit_fail {e : OutEvent} {s : State} (h : s.writeAnswer 0 = .fail) :
    emit e s = .ended { s.drawWrite with run := .halted .ioError } := by
  rw [← draw_writes] at h; simp [emit, h, State.drawWrite, raise]

/-- Everything a write can do. -/
theorem emit_cases (e : OutEvent) (s : State) :
    (s.writeAnswer 0 = .ok ∧ emit e s = .done () { s.drawWrite with output := s.output ++ [e] }) ∨
    (s.writeAnswer 0 = .fail ∧ emit e s = .ended { s.drawWrite with run := .halted .ioError }) := by
  cases h : s.writeAnswer 0 with
  | ok => exact Or.inl ⟨rfl, emit_ok h⟩
  | fail => exact Or.inr ⟨rfl, emit_fail h⟩

theorem emit_leaves (e : OutEvent) (s : State) : (emit e s).Leaves (PortFrame s) := by
  rcases emit_cases e s with ⟨-, h⟩ | ⟨-, h⟩ <;> rw [h]
  · exact ⟨rfl, rfl, rfl, rfl, rfl, fun _ _ _ => rfl, id, List.suffix_refl _, rfl, Nat.le_refl _, List.prefix_append _ _⟩
  · exact ⟨rfl, rfl, rfl, rfl, rfl, fun _ _ _ => rfl, id, List.suffix_refl _, rfl, Nat.le_refl _, List.prefix_refl _⟩

/-- A write takes no input. -/
theorem emit_input (e : OutEvent) (s : State) : (emit e s).Leaves (KeptInput s) := by
  rcases emit_cases e s with ⟨-, h⟩ | ⟨-, h⟩ <;> rw [h] <;> exact ⟨rfl, rfl⟩

/-! ## The keyboard -/

theorem kbdr_ne_kbsr : kbdrAddr ≠ kbsrAddr := by decide

theorem memWrite_frame {a v : Word} {s t : State} (ha : a = kbsrAddr ∨ a = kbdrAddr) (h : ReadFrame s t) :
    ReadFrame s (memWrite a v t) :=
  ⟨⟨h.cfg, h.regs, h.pc, h.cond, h.image, fun b h1 h2 => by
      have hb : b ≠ a := by rcases ha with rfl | rfl <;> assumption
      exact (Memory.read_write_other t.mem v hb).trans (h.read b h1 h2),
    fun w => Memory.wf_write (h.wf w) a v, h.reads, h.tail, h.taken, h.output⟩, h.writes, h.outputSame⟩

/-- `KeyboardPoll()` case by case (20_memory.md R53): not ready, ready with a byte, ready with a failing read. -/
theorem keyboardPoll_cases (s : State) :
    let polled := memWrite kbsrAddr (readyWord s.inputPoll.2) s.inputPoll.2
    (s.inputPoll.1 = false ∧ keyboardPoll s = .done () (memWrite kbsrAddr 0#16 s.inputPoll.2)) ∨
    (∃ b, s.inputPoll.1 = true ∧ s.nextAnswer = some (.byte b) ∧
      keyboardPoll s = .done () (memWrite kbdrAddr (zext8 b) polled.takeInput)) ∨
    (s.inputPoll.1 = true ∧ s.nextAnswer = some .fail ∧
      keyboardPoll s = .ended { polled.takeInput with run := .halted .ioError }) := by
  have hn : (memWrite kbsrAddr (readyWord s.inputPoll.2) s.inputPoll.2).nextAnswer = s.nextAnswer :=
    nextAnswer_congr (by simp) (by simp) (by simp)
  intro polled
  rcases hp : s.inputPoll with ⟨b, s1⟩
  have hk : keyboardPoll s = bif b then pollConsume (memWrite kbsrAddr (readyWord s1) s1)
      else .done () (memWrite kbsrAddr 0#16 s1) := by
    unfold keyboardPoll; rw [hp]; cases b <;> rfl
  simp only [polled, hp] at hn ⊢
  cases b with
  | false => exact Or.inl ⟨rfl, hk⟩
  | true =>
    have ha : s.nextAnswer ≠ none := nextAnswer_of_inputPoll (by rw [hp])
    rcases h : s.nextAnswer with _ | (c | _)
    · exact absurd h ha
    · exact Or.inr (Or.inl ⟨c, rfl, rfl, by rw [hk]; simp [pollConsume, hn, h]⟩)
    · exact Or.inr (Or.inr ⟨rfl, rfl, by rw [hk]; simp [pollConsume, hn, h, raise]⟩)

theorem polled_frame (s : State) : ReadFrame s (memWrite kbsrAddr (readyWord s.inputPoll.2) s.inputPoll.2).takeInput :=
  (memWrite_frame (Or.inl rfl) (inputPoll_frame s)).trans (takeInput_frame _)

theorem keyboardPoll_leaves (s : State) : (keyboardPoll s).Leaves (ReadFrame s) := by
  rcases keyboardPoll_cases s with ⟨-, h⟩ | ⟨b, -, -, h⟩ | ⟨-, -, h⟩ <;> rw [h]
  · exact memWrite_frame (Or.inl rfl) (inputPoll_frame s)
  · exact memWrite_frame (Or.inr rfl) (polled_frame s)
  · exact (polled_frame s).setRun _

/-! ## Reads of memory -/

/-- A read of any address but 0xFE00 is pure (20_memory.md R52, R59). -/
theorem memRead_plain {a : Word} (h : a ≠ kbsrAddr) (s : State) : memRead a s = .done (s.mem.read a) s := by
  simp [memRead, h]

theorem memRead_kbsr (s : State) :
    memRead kbsrAddr s = (keyboardPoll s).andThen fun _ s1 => .done (s1.mem.read kbsrAddr) s1 := by
  simp [memRead]

/-- Everything a read may change (20_memory.md R52, R53). -/
theorem memRead_leaves (a : Word) (s : State) : (memRead a s).Leaves (ReadFrame s) := by
  unfold memRead
  split
  · exact (keyboardPoll_leaves s).andThen (fun _ _ h => h) fun _ h => h
  · exact ReadFrame.refl s

/-- A read that ends the step raised IoError, and only a read of 0xFE00 can (20_memory.md R56). -/
theorem memRead_ended {a : Word} {s t : State} (h : memRead a s = .ended t) :
    a = kbsrAddr ∧ t.run = .halted .ioError := by
  by_cases ha : a = kbsrAddr
  · subst ha
    rw [memRead_kbsr] at h
    rcases keyboardPoll_cases s with ⟨-, k⟩ | ⟨_, -, -, k⟩ | ⟨-, -, k⟩ <;> rw [k] at h
    · cases h
    · cases h
    · exact ⟨rfl, Op.ended.inj h ▸ rfl⟩
  · rw [memRead_plain ha] at h; cases h

/-- The run state after a read that gave a word is as before. -/
theorem memRead_done_run {a v : Word} {s t : State} (h : memRead a s = .done v t) : t.run = s.run := by
  by_cases ha : a = kbsrAddr
  · subst ha
    rw [memRead_kbsr] at h
    rcases keyboardPoll_cases s with ⟨-, k⟩ | ⟨_, -, -, k⟩ | ⟨-, -, k⟩ <;> rw [k] at h <;> cases h <;> simp
  · rw [memRead_plain ha] at h; cases h; rfl

/-- The word a read gives is the stored word of the state it leaves (20_memory.md R52). -/
theorem memRead_done_value {a v : Word} {s t : State} (h : memRead a s = .done v t) : v = t.mem.read a := by
  by_cases ha : a = kbsrAddr
  · subst ha
    rw [memRead_kbsr] at h
    rcases keyboardPoll_cases s with ⟨-, k⟩ | ⟨_, -, -, k⟩ | ⟨-, -, k⟩ <;> rw [k] at h <;> cases h <;> rfl
  · rw [memRead_plain ha] at h; cases h; rfl

end Sys2Proof.Machine
end

