-- ==== Sys2Proof/Laws/PerInstr.lean ====
section
/-! SUPPORT. Statements about every instruction as syntax, one lemma per constructor.
`Canonical`: the encoder's word has every ignored bit at its canonical value (30_encoding.md rule R88). -/

namespace Sys2Proof.Laws.Canonical

/-- The word of the instruction is one a model with `CANONICAL_ONLY` = true accepts (R88). -/
def Statement (i : Instr) : Prop := canonical (encode i) = true

theorem addReg (dr sr1 sr2 : Reg) : Statement (.addReg dr sr1 sr2) := by
  have h := (extract_base6 0x1#4 dr sr1 (tailReg sr2) (k := 3) (l := 2) (by decide)).trans (ignored_tailReg sr2)
  simp [Statement, canonical, encode, h]

theorem addImm (dr sr1 : Reg) (imm5 : BitVec 5) : Statement (.addImm dr sr1 imm5) := by
  simp [Statement, canonical, encode]

theorem andReg (dr sr1 sr2 : Reg) : Statement (.andReg dr sr1 sr2) := by
  have h := (extract_base6 0x5#4 dr sr1 (tailReg sr2) (k := 3) (l := 2) (by decide)).trans (ignored_tailReg sr2)
  simp [Statement, canonical, encode, h]

theorem andImm (dr sr1 : Reg) (imm5 : BitVec 5) : Statement (.andImm dr sr1 imm5) := by
  simp [Statement, canonical, encode]

theorem not (dr sr : Reg) : Statement (.not dr sr) := by
  have h := off6Field_base6 0x9#4 dr sr 0x3F#6
  simp only [off6Field] at h
  simp [Statement, canonical, encode, h]

theorem ld (dr : Reg) (off9 : BitVec 9) : Statement (.ld dr off9) := by simp [Statement, canonical, encode]

theorem ldi (dr : Reg) (off9 : BitVec 9) : Statement (.ldi dr off9) := by simp [Statement, canonical, encode]

theorem ldr (dr baser : Reg) (off6 : BitVec 6) : Statement (.ldr dr baser off6) := by
  simp [Statement, canonical, encode]

theorem lea (dr : Reg) (off9 : BitVec 9) : Statement (.lea dr off9) := by simp [Statement, canonical, encode]

theorem st (sr : Reg) (off9 : BitVec 9) : Statement (.st sr off9) := by simp [Statement, canonical, encode]

theorem sti (sr : Reg) (off9 : BitVec 9) : Statement (.sti sr off9) := by simp [Statement, canonical, encode]

theorem str (sr baser : Reg) (off6 : BitVec 6) : Statement (.str sr baser off6) := by
  simp [Statement, canonical, encode]

theorem br (n z p : Bool) (off9 : BitVec 9) : Statement (.br n z p off9) := by simp [Statement, canonical, encode]

theorem jmp (baser : Reg) : Statement (.jmp baser) := by
  have h := off6Field_base6 0xC#4 0#3 baser 0#6
  have k := drField_base6 0xC#4 0#3 baser 0#6
  simp only [off6Field, drField] at h k
  simp [Statement, canonical, encode, h, k]

theorem ret : Statement .ret := by unfold Statement; decide

theorem jsr (off11 : BitVec 11) : Statement (.jsr off11) := by
  simp [Statement, canonical, encode]

theorem jsrr (baser : Reg) : Statement (.jsrr baser) := by
  have h := off6Field_base6 0x4#4 0#3 baser 0#6
  have k := extract_jsrr 0x4#4 0#3 baser 0#6
  simp only [off6Field] at h
  simp [Statement, canonical, encode, h, k]

theorem trap (vect : BitVec 8) : Statement (.trap vect) := by
  have h := (extract_low12 0xF#4 (0#4 ++ vect) (k := 8) (l := 4) (by decide)).trans
    (extract_high 0#4 vect (by decide))
  simp [Statement, canonical, encode, h]

theorem rti : Statement .rti := by unfold Statement; decide

theorem res : Statement .res := by unfold Statement; decide

end Sys2Proof.Laws.Canonical
end

