-- ==== Sys2Proof/Laws/Trap.lean ====
section
/-! SUPPORT. The trap services: what each leaves unchanged, how the string loop goes, and when it never ends
(43_trap.md; log 14). -/

namespace Sys2Proof.Machine

/-! ## What the link write and the dispatch leave -/

theorem link_rest (s : State) (v : Word) : s.link v = { s with regs := (s.link v).regs, cond := (s.link v).cond } := by
  unfold State.link; split <;> rfl

/-- After the link write, effects on the run state and the ports alone stay inside the TRAP's frame. -/
theorem trapFrame_of_link {s t : State} (h : t = { s.link s.pc with
    run := t.run, reads := t.reads, taken := t.taken, writes := t.writes, drawn := t.drawn,
    output := t.output }) : TrapFrame s t := by
  refine ⟨?_, ?_, fun r hr => ?_, ?_⟩ <;> rw [h]
  · simp
  · exact reg_link_same s s.pc
  · exact (reg_link s r s.pc).trans (if_neg hr)
  · simp

/-- After the link write and a character in R0, effects on the ports alone stay inside the character's frame. -/
theorem charFrame_of_link {s t : State} {b : Byte} (h : t = { (s.link s.pc).setReg 0#3 (zext8 b) with
    reads := t.reads, taken := t.taken, writes := t.writes, drawn := t.drawn, output := t.output }) : CharFrame b s t := by
  refine ⟨?_, ?_, ?_, fun r hr hr' => ?_, ?_⟩ <;> rw [h]
  · simp
  · exact reg_setReg_same (s.link s.pc) 0#3 _
  · exact (reg_setReg (s.link s.pc) 0#3 7#3 _).trans (by simp)
  · exact (reg_setReg (s.link s.pc) 0#3 r _).trans (by simp [hr, reg_link, hr'])
  · rfl

/-! ## The frames of the services -/

theorem putWord_leaves (w : Word) (s : State) : (putWord w s).Leaves (PortFrame s) := emit_leaves _ s

theorem putPacked_leaves (w : Word) (s : State) : (putPacked w s).Leaves (PortFrame s) := by
  refine (emit_leaves _ s).andThen (fun _ s1 h => ?_) fun _ h => h
  split
  · exact h
  · exact (emit_leaves _ s1).mono fun _ k => h.trans k

theorem putString_leaves (k : StringService) (w : Word) (s : State) : (putString k w s).Leaves (PortFrame s) := by
  cases k
  · exact putWord_leaves w s
  · exact putPacked_leaves w s

theorem putString_input (k : StringService) (w : Word) (s : State) : (putString k w s).Leaves (KeptInput s) := by
  cases k
  · exact emit_input _ s
  · refine (emit_input _ s).andThen (fun _ s1 h => ?_) fun _ h => h
    split
    · exact h
    · exact (emit_input _ s1).mono fun _ k => ⟨k.1.trans h.1, k.2.trans h.2⟩

/-- PUTS and PUTSP write no register, not PC and not COND, and no word of memory but the keyboard's (R184, R186). -/
theorem stringLoop_leaves (k : StringService) :
    ∀ (fuel : Nat) (a : Word) (s : State), (stringLoop k fuel a s).Leaves (PortFrame s)
  | 0, _, s => (PortFrame.refl s).setRun _
  | fuel + 1, a, s => by
    refine ((memRead_leaves a s).mono fun _ h => h.toPortFrame).andThen (fun w s1 h => ?_) fun _ h => h
    split
    · exact h
    · refine ((putString_leaves k w s1).mono fun _ l => h.trans l).andThen (fun _ s2 l => ?_) fun _ l => l
      exact (stringLoop_leaves k fuel (a + 1#16) s2).mono fun _ l' => l.trans l'

theorem puts_leaves (s : State) : (puts s).Leaves (PortFrame s) := stringLoop_leaves .puts _ _ s

theorem putsp_leaves (s : State) : (putsp s).Leaves (PortFrame s) := stringLoop_leaves .putsp _ _ s

theorem out_leaves (s : State) : (out s).Leaves (PortFrame s) := emit_leaves _ s

theorem halt_leaves (s : State) : (halt s).Leaves (PortFrame s) :=
  (emit_leaves _ s).andThen (fun _ _ h => h.setRun _) fun _ h => h

/-! ## The string loop, word by word -/

/-- The zero word ends the string, the read of it done (R184, R186). -/
theorem stringLoop_zero {k : StringService} {fuel : Nat} {a : Word} {s s1 : State} (h : memRead a s = .done 0#16 s1) :
    stringLoop k (fuel + 1) a s = .done () s1 := by
  simp [stringLoop, h]

/-- A word that is not zero is written, and the string goes on at the next address. -/
theorem stringLoop_word {k : StringService} {fuel : Nat} {a w : Word} {s s1 : State} (h : memRead a s = .done w s1)
    (hw : w ≠ 0#16) :
    stringLoop k (fuel + 1) a s = (putString k w s1).andThen fun _ s2 => stringLoop k fuel (a + 1#16) s2 := by
  simp [stringLoop, h, hw]

/-- A read that fails ends the service. -/
theorem stringLoop_fails {k : StringService} {fuel : Nat} {a : Word} {s s1 : State} (h : memRead a s = .ended s1) :
    stringLoop k (fuel + 1) a s = .ended s1 := by
  simp [stringLoop, h]

/-- The bytes of the words after the first follow those of the first. -/
theorem stringBytes_cons (k : StringService) (w : Word) (ws : List Word) :
    stringBytes k (w :: ws) = stringBytes k [w] ++ stringBytes k ws := by
  cases k <;> simp [stringBytes]

/-- Writing these bytes one after another, the string loop's effect on the output port. -/
def emitAll : List Byte → State → Op Unit
  | [], s => .done () s
  | b :: bs, s => (outputByte b s).andThen fun _ s1 => emitAll bs s1

theorem Op.andThen_assoc {α β γ : Type} (x : Op α) (f : α → State → Op β) (g : β → State → Op γ) :
    (x.andThen f).andThen g = x.andThen fun a s => (f a s).andThen g := by
  cases x <;> rfl

theorem emitAll_append (bs cs : List Byte) (s : State) :
    emitAll (bs ++ cs) s = (emitAll bs s).andThen fun _ s1 => emitAll cs s1 := by
  induction bs generalizing s with
  | nil => rfl
  | cons b bs ih => simp only [List.cons_append, emitAll, Op.andThen_assoc, ih]

/-- A string service writes the bytes of the word, in order. -/
theorem putString_eq_emitAll (k : StringService) (w : Word) (s : State) :
    putString k w s = emitAll (stringBytes k [w]) s := by
  have done : ∀ x : Op Unit, (x.andThen fun _ s1 => .done () s1) = x := fun x => by cases x <;> rfl
  cases k with
  | puts => exact (done _).symm
  | putsp =>
    by_cases h : highByte w = 0#8
    · simp [putString, putPacked, stringBytes, packedBytes, h, emitAll]
    · simp [putString, putPacked, stringBytes, packedBytes, h, emitAll, done]

/-- Writing bytes changes nothing but the output port and, when it fails, the run state. -/
theorem emitAll_rest (bs : List Byte) (s : State) : (emitAll bs s).Leaves fun t =>
    t = { s with run := t.run, writes := t.writes, drawn := t.drawn, output := t.output } := by
  induction bs generalizing s with
  | nil => rfl
  | cons b bs ih =>
    rw [emitAll, outputByte]
    rcases emit_cases (.byte b) s with ⟨-, h⟩ | ⟨-, h⟩ <;> rw [h]
    · refine (ih _).mono fun t ht => ?_
      rw [ht]; rfl
    · rfl

/-- Bytes the host accepts are all written. -/
theorem emitAll_ok {bs : List Byte} {s : State} (h : ∀ i, i < bs.length → s.writeAnswer i = .ok) :
    ∃ t, emitAll bs s = .done () t ∧ t.output = s.output ++ bs.map .byte ∧
      t = { s with writes := t.writes, drawn := t.drawn, output := t.output } := by
  induction bs generalizing s with
  | nil => exact ⟨s, rfl, by simp, rfl⟩
  | cons b bs ih =>
    obtain ⟨t, ht, ho, hr⟩ := ih (s := { s.drawWrite with output := s.output ++ [.byte b] }) fun i hi =>
      (writeAnswer_drawWrite s i).trans (h (i + 1) (Nat.succ_lt_succ hi))
    refine ⟨t, by rw [emitAll, outputByte, emit_ok (h 0 (Nat.succ_pos _))]; exact ht, by simp [ho], ?_⟩
    rw [hr]; rfl

/-- A failing write stops the run; the bytes before it stay written (60_exceptions.md R222). -/
theorem emitAll_fail {bs : List Byte} {n : Nat} {s : State} (hn : n < bs.length)
    (hok : ∀ i, i < n → s.writeAnswer i = .ok) (hfail : s.writeAnswer n = .fail) :
    ∃ t, emitAll bs s = .ended t ∧ t.run = .halted .ioError ∧ t.output = s.output ++ (bs.take n).map .byte ∧
      t = { s with run := t.run, writes := t.writes, drawn := t.drawn, output := t.output } := by
  induction bs generalizing n s with
  | nil => exact absurd hn (Nat.not_lt_zero n)
  | cons b bs ih =>
    cases n with
    | zero => exact ⟨_, by rw [emitAll, outputByte, emit_fail hfail]; rfl, rfl, by simp [State.drawWrite], rfl⟩
    | succ n =>
      obtain ⟨t, ht, hrun, ho, hr⟩ := ih (n := n) (s := { s.drawWrite with output := s.output ++ [.byte b] })
        (Nat.lt_of_succ_lt_succ hn)
        (fun i hi => (writeAnswer_drawWrite s i).trans (hok (i + 1) (Nat.succ_lt_succ hi)))
        ((writeAnswer_drawWrite s n).trans hfail)
      refine ⟨t, by rw [emitAll, outputByte, emit_ok (hok 0 (Nat.succ_pos _))]; exact ht, hrun, by simp [ho], ?_⟩
      rw [hr]; rfl

/-- A string clear of the keyboard status word is shorter than the address space. -/
theorem stringAt_length {m : Memory} {a : Word} {ws : List Word} (h : stringAt m a ws) : ws.length < 65536 := by
  by_contra hc
  have hlt := (kbsrAddr - a).isLt
  refine h.2.2 (kbsrAddr - a).toNat (by omega) ?_
  rw [BitVec.ofNat_toNat, BitVec.setWidth_eq]
  exact add_sub_cancel a kbsrAddr

/-- The string after its first word. -/
theorem stringAt_cons {m : Memory} {a w : Word} {ws : List Word} (h : stringAt m a (w :: ws)) :
    m.read a = w ∧ w ≠ 0#16 ∧ a ≠ kbsrAddr ∧ stringAt m (a + 1#16) ws := by
  have e : ∀ i : Nat, a + 1#16 + BitVec.ofNat 16 i = a + BitVec.ofNat 16 (i + 1) := fun i => by
    rw [BitVec.add_assoc]; congr 1; apply BitVec.eq_of_toNat_eq; simp; omega
  have z : a + BitVec.ofNat 16 0 = a := by simp
  obtain ⟨hw, hz, hk⟩ := h
  have h0 := hw 0 (Nat.succ_pos _)
  have hk0 := hk 0 (Nat.zero_le _)
  rw [z] at h0 hk0
  refine ⟨h0.1, h0.2, hk0, fun i hi => ?_, ?_, fun i hi => ?_⟩
  · rw [e]; exact hw (i + 1) (Nat.succ_lt_succ hi)
  · rw [e]; exact hz
  · rw [e]; exact hk (i + 1) (Nat.succ_le_succ hi)

/-- A string clear of the keyboard status word is written byte by byte (R184, R186). -/
theorem stringLoop_eq_emitAll {k : StringService} {ws : List Word} :
    ∀ {fuel : Nat} {a : Word} {s : State}, stringAt s.mem a ws → ws.length < fuel →
      stringLoop k fuel a s = emitAll (stringBytes k ws) s := by
  induction ws with
  | nil =>
    intro fuel a s h hf
    obtain ⟨fuel, rfl⟩ : ∃ f, fuel = f + 1 := ⟨fuel - 1, by simp at hf; omega⟩
    have z : a + BitVec.ofNat 16 0 = a := by simp
    have hz : s.mem.read a = 0#16 := by simpa using h.2.1
    have hk : a ≠ kbsrAddr := by simpa using h.2.2 0 (Nat.zero_le _)
    rw [stringLoop_zero (s1 := s) (by rw [memRead_plain hk, hz])]
    cases k <;> rfl
  | cons w ws ih =>
    intro fuel a s h hf
    obtain ⟨fuel, rfl⟩ : ∃ f, fuel = f + 1 := ⟨fuel - 1, by simp at hf; omega⟩
    obtain ⟨hr, hw, hk, ht⟩ := stringAt_cons h
    rw [stringLoop_word (by rw [memRead_plain hk, hr]) hw, putString_eq_emitAll, stringBytes_cons k w ws,
      emitAll_append]
    have hl := emitAll_rest (stringBytes k [w]) s
    cases he : emitAll (stringBytes k [w]) s with
    | ended t => rfl
    | done u t =>
      rw [he] at hl
      have hm : t.mem = s.mem := by rw [show t = _ from hl]
      exact ih (hm ▸ ht) (Nat.lt_of_succ_lt_succ hf)

/-- A step that ends inside a string comes to the address where it began (log 14). -/
theorem stringPass_wraps (a : Word) : a + BitVec.ofNat 16 stringPass = a := by
  rw [show BitVec.ofNat 16 stringPass = 0#16 from rfl]
  simp

/-! ## What a service leaves in the registers -/

/-- `P` holds of every state a write of R0 leaves, if it holds of the state before with R0 set. -/
theorem putChar_leaves {P : State → Prop} {b : Byte} {s : State} (h : P (s.setReg 0#3 (zext8 b))) :
    (putChar b s).Leaves P := h

/-- No service writes PC, or any register but R0 (R25, R226). -/
theorem service_leaves (vect : BitVec 8) (s : State) :
    (service vect s).Leaves fun t => t.pc = s.pc ∧ t.cfg = s.cfg ∧ ∀ r, r ≠ 0#3 → t.reg r = s.reg r := by
  have keep : ∀ {t : State}, PortFrame s t → t.pc = s.pc ∧ t.cfg = s.cfg ∧ ∀ r, r ≠ 0#3 → t.reg r = s.reg r :=
    fun h => ⟨h.pc, h.cfg, fun r _ => h.reg r⟩
  have char : ∀ {t : State} (b : Byte), PortFrame s t →
      (putChar b t).Leaves fun u => u.pc = s.pc ∧ u.cfg = s.cfg ∧ ∀ r, r ≠ 0#3 → u.reg r = s.reg r :=
    fun b h => putChar_leaves ⟨h.pc, h.cfg, fun r hr => by rw [reg_setReg, if_neg hr]; exact h.reg r⟩
  unfold service
  split
  · exact (inputRead_leaves _ s).andThen (fun b _ h => char b h.toPortFrame) fun _ h => keep h.toPortFrame
  · exact (emit_leaves _ s).mono fun _ h => keep h
  · exact (puts_leaves s).mono fun _ h => keep h
  · refine (emit_leaves _ s).andThen (fun _ s1 h => ?_) fun _ h => keep h
    refine ((inputRead_leaves _ s1).mono fun _ k => h.trans k.toPortFrame).andThen (fun b s2 k => ?_) fun _ k => keep k
    exact ((emit_leaves _ s2).mono fun _ l => k.trans l).andThen (fun _ _ l => char b l) fun _ l => keep l
  · exact (putsp_leaves s).mono fun _ h => keep h
  · exact (halt_leaves s).mono fun _ h => keep h
  · exact keep ((PortFrame.refl s).setRun _)

end Sys2Proof.Machine
end

