-- ==== Sys2Proof/Laws/Step.lean ====
section
/-! SUPPORT. One lemma per operation around the instructions: the frames of a register write, a store and a link write,
the loads, the fetch, the step by run state, and the loader. -/

namespace Sys2Proof.Machine

/-! ## The frames of the plain writes -/

/-- A flag-path write changes its register and COND only (10_state.md R23). -/
theorem onlyReg_setReg (dr : Reg) (v : Word) (s : State) : OnlyReg dr s (s.setReg dr v) :=
  ⟨rfl, fun q hq => by rw [reg_setReg, if_neg hq]⟩

/-- A store changes its word only (20_memory.md R55). -/
theorem onlyWord_memWrite (a v : Word) (s : State) : OnlyWord a s (memWrite a v s) :=
  ⟨rfl, fun _ h => Memory.read_write_other s.mem v h⟩

/-- The link write and a jump change R7, PC and, under `LINK_SETS_COND`, COND (R24). -/
theorem onlyLink_link (s : State) (target : Word) : OnlyLink s ((s.link s.pc).setPc target) := by
  refine ⟨?_, ?_, fun q hq => ?_⟩
  · unfold State.link; split <;> rfl
  · unfold State.link; split <;> simp_all [State.setPc, State.setReg, State.putReg]
  · exact (reg_link s q s.pc).trans (if_neg hq)

/-- The flag of any word is a legal COND (R28). -/
theorem condLegal_flag (v : Word) : condLegal (flag v) = true := by
  unfold flag
  split
  · rfl
  · split <;> rfl

/-! ## Loads -/

/-- A load from `ea`: the word read goes to DR, or the read ended the step (41_load_store.md R130). -/
theorem loadWord_cases (dr : Reg) (ea : Word) (s : State) :
    (∃ v u, memRead ea s = .done v u ∧ loadWord dr ea s = .done () (u.setReg dr v)) ∨
    (∃ u, memRead ea s = .ended u ∧ loadWord dr ea s = .ended u) := by
  cases h : memRead ea s with
  | done v u => exact Or.inl ⟨v, u, rfl, by simp [loadWord, h, loadInto]⟩
  | ended u => exact Or.inr ⟨u, rfl, by simp [loadWord, h]⟩

/-! ## The step -/

/-- The fetch (70_reset_and_hazards.md R260, R261): the word at PC and the increment, or the end of the step. -/
theorem fetch_cases (s : State) :
    (∃ w u, memRead s.pc s = .done w u ∧ fetch s = .done w u.advance) ∨
    (∃ u, memRead s.pc s = .ended u ∧ fetch s = .ended u) := by
  cases h : memRead s.pc s with
  | done w u => exact Or.inl ⟨w, u, rfl, by simp [fetch, h]⟩
  | ended u => exact Or.inr ⟨u, rfl, by simp [fetch, h]⟩

/-- Everything a step that answers a next state can be, by run state (10_state.md R30, R31). -/
theorem step_cases {s t : State} (h : step s = .next t) :
    (∃ img, s.run = .notStarted ∧ s.image = some img ∧ t = load img s) ∨
    (∃ w, s.run = .waiting w ∧ resume w s = .next t) ∨
    (∃ k a, s.run = .writing k a ∧ continueString k a s = .next t) ∨
    (∃ w u, s.run = .running ∧ memRead s.pc s = .done w u ∧ exec (decode w) u.advance = .next t) ∨
    (s.run = .running ∧ memRead s.pc s = .ended t) := by
  unfold step at h
  split at h
  · rename_i hr
    unfold start at h
    split at h
    · rename_i img hi
      exact Or.inl ⟨img, hr, hi, (Host.Outcome.next.inj h).symm⟩
    · cases h
  · cases h
  · cases h
  · rename_i w hr
    exact Or.inr (Or.inl ⟨w, hr, h⟩)
  · rename_i k a hr
    exact Or.inr (Or.inr (Or.inl ⟨k, a, hr, h⟩))
  · rename_i hr
    rcases fetch_cases s with ⟨w, u, hm, hf⟩ | ⟨u, hm, hf⟩ <;> rw [hf] at h
    · refine Or.inr (Or.inr (Or.inr (Or.inl ⟨w, u, hr, hm, ?_⟩)))
      dsimp only at h
      unfold decodeWith at h
      split at h
      · rename_i i hi
        split at hi
        · cases hi
        · cases hi; exact h
      · cases h
    · exact Or.inr (Or.inr (Or.inr (Or.inr ⟨hr, hm.trans (congrArg _ (Host.Outcome.next.inj h))⟩)))

/-! ## The loader -/

/-- A word's two bytes, high byte first, make the word again (R251). -/
theorem wordOfBytes_bytes (w : Word) : wordOfBytes (highByte w) (lowByte w) = w := by
  apply BitVec.eq_of_getLsbD_eq
  intro i hi
  unfold wordOfBytes
  rw [BitVec.getLsbD_append]
  by_cases h : i < 8
  · simp [lowByte, h]
  · have e : 8 + (i - 8) = i := by omega
    simp [highByte, h, e]
    omega

/-- The loader keeps the canonical form of memory (log 1). -/
theorem loadWords_wf : ∀ (bs : List Byte) (a : Word) (m : Memory), m.wf = true → (loadWords a bs m).1.wf = true
  | [], _, _, h => h
  | [_], _, _, h => h
  | _ :: _ :: bs, _, _, h => loadWords_wf bs _ _ (Memory.wf_write h _ _)

/-- One whole word of the stream (R252). -/
theorem loadWords_cons (a w : Word) (ws : List Word) (more : List Byte) (m : Memory) :
    loadWords a (imageBytes (w :: ws) ++ more) m = loadWords (a + 1#16) (imageBytes ws ++ more) (m.write a w) := by
  show loadWords a (highByte w :: lowByte w :: (imageBytes ws ++ more)) m = _
  rw [loadWords, wordOfBytes_bytes]

end Sys2Proof.Machine
end

