-- ==== Sys2Proof/Laws/Strings.lean ====
section
/-! SUPPORT. Strings as whole instructions: what a TRAP that writes one is, the run states it can end in, and why it
never ends where no word is zero and keys keep coming (43_trap.md R184, R186; 60_exceptions.md R228; log 14). -/

namespace Sys2Proof.Machine

/-- PUTS and PUTSP are the string loop from R0, after the link write. -/
theorem exec_string (k : StringService) (s : State) :
    exec (.trap k.vector) s = (stringLoop k stringPass (s.reg 0#3) (s.link s.pc)).outcome := by
  have h0 : (s.link s.pc).reg 0#3 = s.reg 0#3 := by simp [reg_link]
  cases k <;> simp [exec, execTrap, service, StringService.vector, puts, putsp, h0]

/-- Word by word, the address comes to the same place. -/
theorem address_succ (a : Word) (n : Nat) : a + 1#16 + BitVec.ofNat 16 n = a + BitVec.ofNat 16 (n + 1) := by
  rw [BitVec.add_assoc]
  congr 1
  apply BitVec.eq_of_toNat_eq
  simp
  omega

/-- A write goes on or stops the run with IoError. -/
theorem emit_run (e : OutEvent) (s : State) :
    (emit e s).Leaves fun t => t.run = s.run ∨ t.run = .halted .ioError := by
  rcases emit_cases e s with ⟨-, h⟩ | ⟨-, h⟩ <;> rw [h]
  · exact Or.inl rfl
  · exact Or.inr rfl

/-- So do writes one after another. -/
theorem emitAll_run (bs : List Byte) (s : State) :
    (emitAll bs s).Leaves fun t => t.run = s.run ∨ t.run = .halted .ioError := by
  induction bs generalizing s with
  | nil => exact Or.inl rfl
  | cons b bs ih =>
    refine (emit_run _ s).andThen (fun _ t h => (ih t).mono fun u hu => ?_) fun _ h => h
    exact hu.elim (fun hu => h.elim (fun h => Or.inl (hu.trans h)) fun h => Or.inr (hu.trans h)) Or.inr

/-- A string goes on, stops the run with IoError, or has read all its fuel and stands where that took it. -/
theorem stringLoop_run (k : StringService) (fuel : Nat) (a : Word) (s : State) :
    (stringLoop k fuel a s).Leaves fun t =>
      t.run = s.run ∨ t.run = .halted .ioError ∨ t.run = .writing k (a + BitVec.ofNat 16 fuel) := by
  induction fuel generalizing a s with
  | zero => exact Or.inr (Or.inr (by simp))
  | succ fuel ih =>
    cases hm : memRead a s with
    | ended t => rw [stringLoop_fails hm]; exact Or.inr (Or.inl (memRead_ended hm).2)
    | done w u =>
      have hu := memRead_done_run hm
      by_cases hw : w = 0#16
      · subst hw; rw [stringLoop_zero hm]; exact Or.inl hu
      · rw [stringLoop_word hm hw, putString_eq_emitAll]
        refine (emitAll_run _ u).andThen (fun _ t h => ?_) fun _ h => h.elim (fun h => Or.inl (h.trans hu)) fun h =>
          Or.inr (Or.inl h)
        refine (ih (a + 1#16) t).mono fun v hv => ?_
        rw [address_succ] at hv
        rcases hv with hv | hv | hv
        · exact h.elim (fun h => Or.inl (hv.trans (h.trans hu))) fun h => Or.inr (Or.inl (hv.trans h))
        · exact Or.inr (Or.inl hv)
        · exact Or.inr (Or.inr hv)

/-! ## Strings that never end -/

/-- The draws of a port that answers `x` for ever still do after one draw, which is `x`. -/
theorem draw_constant {α : Type} {d : Draws α} {x : α} (h : (∀ y ∈ d.script, y = x) ∧ d.rest = some x) (free : α) :
    (d.draw free).1 = x ∧ (∀ y ∈ (d.draw free).2.script, y = x) ∧ (d.draw free).2.rest = some x := by
  unfold Draws.draw
  split
  · rename_i y more e
    exact ⟨h.1 y (e ▸ List.mem_cons_self ..), fun z hz => h.1 z (e ▸ List.mem_cons_of_mem _ hz), h.2⟩
  · exact ⟨by simp [h.2], h⟩

/-- The link write keeps the premises of an unending string. -/
theorem State.Unending.link {s : State} (h : s.Unending) (v : Word) : (s.link v).Unending :=
  ⟨by simpa using h.words, by simpa using h.polls, by simpa using h.keys, by simpa using h.keyHeld,
    by simpa using h.writes⟩

/-- A key is pending. -/
theorem State.Unending.key {s : State} (h : s.Unending) : ∃ b, s.nextAnswer = some (.byte b) ∧ b ≠ 0#8 := by
  obtain ⟨b, hb, hb0⟩ := h.keyHeld
  cases hs : s.reads with
  | nil => exact ⟨b, by simp [State.nextAnswer, hs, hb], hb0⟩
  | cons x more =>
    obtain ⟨c, rfl, hc⟩ := h.keys x (by simp [hs])
    exact ⟨c, nextAnswer_cons hs, hc⟩

/-- Taking that key leaves the next. -/
theorem State.Unending.takeInput {s : State} (h : s.Unending) : s.takeInput.Unending := by
  refine ⟨by simpa using h.words, by simpa using h.polls, ?_, by simpa using h.keyHeld, by simpa using h.writes⟩
  unfold State.takeInput
  split
  · rename_i x more e
    exact fun y hy => h.keys y (e ▸ List.mem_cons_of_mem _ hy)
  · exact h.keys

/-- The ready word is not zero: its bit 15 is set (20_memory.md R53, D3). -/
theorem readyWord_ne_zero (s : State) : readyWord s ≠ 0#16 := by
  have h : (readyWord s).getLsbD 15 = true := by unfold readyWord; split <;> simp
  intro e
  rw [e] at h
  cases h

theorem zext8_ne_zero {b : Byte} (h : b ≠ 0#8) : zext8 b ≠ 0#16 := by
  intro e
  apply h
  apply BitVec.eq_of_toNat_eq
  have hb := b.isLt
  have ht := congrArg BitVec.toNat e
  simp only [zext8, BitVec.toNat_setWidth, BitVec.toNat_ofNat] at ht ⊢
  omega

/-- Every read gives a word that is not zero, the premises kept. -/
theorem State.Unending.memRead {s : State} (h : s.Unending) (a : Word) : ∃ w t, memRead a s = .done w t ∧
    w ≠ 0#16 ∧ t.Unending ∧ t.pc = s.pc ∧ t.output = s.output := by
  by_cases ha : a = kbsrAddr
  · subst ha
    obtain ⟨b, hb, hb0⟩ := h.key
    obtain ⟨hd, hp⟩ := draw_constant h.polls (Config.freePoll s.drawn)
    have hpoll := inputPoll_some hb
    rcases keyboardPoll_cases s with ⟨hf, -⟩ | ⟨c, -, hc, hk⟩ | ⟨-, hf, -⟩
    · rw [hpoll, hd] at hf; cases hf
    · rw [hb] at hc
      cases hc
      have h1 : s.inputPoll.2.Unending := by rw [hpoll]; exact ⟨h.words, hp, h.keys, h.keyHeld, h.writes⟩
      have h2 : (memWrite kbsrAddr (readyWord s.inputPoll.2) s.inputPoll.2).takeInput.Unending :=
        State.Unending.takeInput ⟨fun a ha => by rw [memWrite_mem, Memory.read_write_other _ _ ha]; exact h1.words a ha,
          h1.polls, h1.keys, h1.keyHeld, h1.writes⟩
      rw [memRead_kbsr, hk]
      refine ⟨_, _, rfl, ?_, ⟨fun a ha => ?_, h2.polls, h2.keys, h2.keyHeld, h2.writes⟩, ?_, ?_⟩
      · rw [memWrite_mem, takeInput_mem, memWrite_mem, Memory.read_write_other _ _ kbdr_ne_kbsr.symm,
          Memory.read_write_same]
        exact readyWord_ne_zero _
      · rw [memWrite_mem]
        by_cases hd : a = kbdrAddr
        · subst hd; rw [Memory.read_write_same]; exact zext8_ne_zero hb0
        · rw [Memory.read_write_other _ _ hd]; exact h2.words a ha
      · simp [(inputPoll_frame s).pc]
      · simp [(inputPoll_frame s).outputSame]
    · rw [hb] at hf; cases hf
  · exact ⟨_, s, memRead_plain ha s, h.words a ha, h, rfl, rfl⟩

/-- Bytes are all written, the premises kept. -/
theorem State.Unending.emitAll {s : State} (h : s.Unending) (bs : List Byte) : ∃ t, emitAll bs s = .done () t ∧
    t.Unending ∧ t.pc = s.pc ∧ t.output.length = s.output.length + bs.length := by
  induction bs generalizing s with
  | nil => exact ⟨s, rfl, h, rfl, rfl⟩
  | cons b bs ih =>
    obtain ⟨hd, hw⟩ := draw_constant h.writes (Config.freeWrite s.drawn)
    obtain ⟨t, ht, hu, hpc, ho⟩ := ih (s := { s.drawWrite with output := s.output ++ [.byte b] })
      ⟨h.words, h.polls, h.keys, h.keyHeld, hw⟩
    refine ⟨t, by rw [Machine.emitAll, outputByte, emit_ok (draw_writes s ▸ hd)]; exact ht, hu, hpc, ?_⟩
    simp only [ho, List.length_append, List.length_cons, List.length_nil]
    omega

theorem stringBytes_pos (k : StringService) (w : Word) : 0 < (stringBytes k [w]).length := by
  cases k
  · simp [stringBytes]
  · simp only [stringBytes, List.flatMap_cons, List.flatMap_nil, packedBytes]; split <;> simp

/-- However many words it reads, the string is not at its end, and each has added to the output (R228). -/
theorem State.Unending.stringLoop {s : State} (h : s.Unending) (k : StringService) (fuel : Nat) (a : Word) :
    ∃ t, stringLoop k fuel a s = .ended t ∧ t.run = .writing k (a + BitVec.ofNat 16 fuel) ∧ t.Unending ∧
      t.pc = s.pc ∧ s.output.length + fuel ≤ t.output.length := by
  induction fuel generalizing a s with
  | zero => exact ⟨_, rfl, by simp, ⟨h.words, h.polls, h.keys, h.keyHeld, h.writes⟩, rfl, Nat.le_refl _⟩
  | succ fuel ih =>
    obtain ⟨w, u, hm, hw, hu, hpc, ho⟩ := h.memRead a
    obtain ⟨v, hv, hv', hpc', ho'⟩ := hu.emitAll (stringBytes k [w])
    obtain ⟨t, ht, hrun, hun, hpc'', ho''⟩ := ih hv' (a + 1#16)
    refine ⟨t, ?_, address_succ a fuel ▸ hrun, hun, by rw [hpc'', hpc', hpc], ?_⟩
    · rw [stringLoop_word hm hw, putString_eq_emitAll, hv]; exact ht
    · have := stringBytes_pos k w
      rw [ho] at ho'
      omega

end Sys2Proof.Machine
end

