-- ==== Sys2Proof/Tests/Slice0.lean ====
section
/-! SUPPORT. Tests: the ill-formed term, the words of the rules' encodings, one-step vectors of 95_test_vectors.md, and a
witness for the hypotheses of every statement that has any. Expected results are the spec's. -/

namespace Sys2Proof.Tests
open Sys2Proof.Machine

/-! ## Helpers -/

/-- The outcome is a next state of which `p` holds. -/
def onNext (o : Host.Outcome State Fault Refusal) (p : State → Bool) : Bool :=
  match o with
  | .next t => p t
  | .fault _ | .refused _ => false

/-- A run under way at 0x3000, its host supplying no input by itself, answering polls at once and accepting every write. -/
def run0 : State :=
  { State.reset with
    run := .running
    tail := .stopped
    polls := { script := [], rest := some true }
    writes := { script := [], rest := some .ok } }

/-- One step of the word `w` from `s`. -/
def stepWord (s : State) (w : Nat) : Host.Outcome State Fault Refusal := step (s.withFetchWord 16 w)

/-- The state after the fetch of an instruction at 0x3000. -/
def after0 : State := { run0 with pc := 0x3001#16 }

/-- A state whose next read of 0xFE00 finds the answer `a`. -/
def pending (a : ReadAnswer) : State := { after0 with reads := [a] }

/-- A state whose next write fails. -/
def mute : State := { after0 with writes := { script := [.fail], rest := none } }

/-! ## Well-formedness: the one check, and what it refuses (30_encoding.md R90) -/

theorem test_jmp_r7_is_ill_formed : Instr.wellFormed (.jmp 7#3) = false := by decide
theorem test_jmp_r3_and_ret_are_well_formed : Instr.wellFormed (.jmp 3#3) = true ∧ Instr.wellFormed .ret = true := by
  decide

/-! ## Decoding: words written bit by bit from R82 and R90 -/

-- ADD R1, R2, R3 (R110): 0001 001 010 0 00 011
theorem test_decode_add : decode 0b0001001010000011#16 = .addReg 1#3 2#3 3#3 := by decide
-- the same with the ignored bits 4..3 set (95 V1): 0001 000 001 0 11 010
theorem test_decode_add_ignored : decode 0b0001000001011010#16 = .addReg 0#3 1#3 2#3 := by decide
-- ADD R0, R1, #-16 (95 V1): 0001 000 001 1 10000
theorem test_decode_addi : decode 0b0001000001110000#16 = .addImm 0#3 1#3 0b10000#5 := by decide
-- AND R1, R2, R3 (R113): 0101 001 010 0 00 011
theorem test_decode_and : decode 0b0101001010000011#16 = .andReg 1#3 2#3 3#3 := by decide
-- AND R2, R2, #0 (R114): 0101 010 010 1 00000
theorem test_decode_andi : decode 0b0101010010100000#16 = .andImm 2#3 2#3 0#5 := by decide
-- NOT R4, R5 (R116): 1001 100 101 111111
theorem test_decode_not : decode 0b1001100101111111#16 = .not 4#3 5#3 := by decide
-- LD R2, #6 (R130): 0010 010 000000110
theorem test_decode_ld : decode 0b0010010000000110#16 = .ld 2#3 6#9 := by decide
-- LDI R1, #5 (R132): 1010 001 000000101
theorem test_decode_ldi : decode 0b1010001000000101#16 = .ldi 1#3 5#9 := by decide
-- LDR R1, R2, #-1 (R134): 0110 001 010 111111
theorem test_decode_ldr : decode 0b0110001010111111#16 = .ldr 1#3 2#3 0b111111#6 := by decide
-- LEA R0, #2 (R136): 1110 000 000000010
theorem test_decode_lea : decode 0b1110000000000010#16 = .lea 0#3 2#9 := by decide
-- ST R1, #2 (R138): 0011 001 000000010
theorem test_decode_st : decode 0b0011001000000010#16 = .st 1#3 2#9 := by decide
-- STI R3, #1 (R140): 1011 011 000000001
theorem test_decode_sti : decode 0b1011011000000001#16 = .sti 3#3 1#9 := by decide
-- STR R0, R3, #1 (R142): 0111 000 011 000001
theorem test_decode_str : decode 0b0111000011000001#16 = .str 0#3 3#3 1#6 := by decide
-- BRp #-3 (R161): 0000 001 111111101
theorem test_decode_br : decode 0b0000001111111101#16 = .br false false true 0b111111101#9 := by decide
-- JMP R3 (R163): 1100 000 011 000000
theorem test_decode_jmp : decode 0b1100000011000000#16 = .jmp 3#3 := by decide
-- RET (R163): 1100 000 111 000000
theorem test_decode_ret : decode 0b1100000111000000#16 = .ret := by decide
-- JSR #8 (R166): 0100 1 00000001000
theorem test_decode_jsr : decode 0b0100100000001000#16 = .jsr 8#11 := by decide
-- JSRR R3 with the ignored bits set (95 V8): 0100 0 11 011 111111
theorem test_decode_jsrr : decode 0b0100011011111111#16 = .jsrr 3#3 := by decide
-- TRAP x25 (R187): 1111 0000 00100101
theorem test_decode_trap : decode 0b1111000000100101#16 = .trap 0x25#8 := by decide
-- RTI (R210): 1000 000000000000
theorem test_decode_rti : decode 0b1000000000000000#16 = .rti := by decide
-- RES (R211): 1101 000000000000
theorem test_decode_res : decode 0b1101000000000000#16 = .res := by decide
-- the encoder writes the rules' example words (R110, R116, R166)
theorem test_encode : encode (.addReg 1#3 2#3 3#3) = 0x1283#16 ∧ encode (.not 4#3 5#3) = 0x997F#16 ∧
    encode (.jsr 8#11) = 0x4808#16 ∧ encode (.br false false true 509#9) = 0x03FD#16 := by decide
-- 95 V3: the non-canonical NOT is refused under CANONICAL_ONLY
theorem test_canonical_only : decodeWith true 0x9040#16 = .nonCanonical 0x9040#16 ∧
    decodeWith true 0x907F#16 = .instr (.not 0#3 1#3) ∧ decodeWith false 0x9040#16 = .instr (.not 0#3 1#3) := by decide

/-! ## Steps (95_test_vectors.md Part 2) -/

-- V1: R1 = 0x7FFF, R2 = 0x0001, ADD R0, R1, R2
theorem test_add_overflow : onNext (stepWord ((run0.putReg 1#3 0x7FFF#16).putReg 2#3 1#16) 0x1042) (fun t =>
    t.reg 0#3 == 0x8000#16 && t.cond == 4#16 && t.pc == 0x3001#16) = true := by decide
-- V1: ADD R0, R0, R0, source and destination the same
theorem test_add_same : onNext (stepWord (run0.putReg 0#3 0x4000#16) 0x1000) (fun t =>
    t.reg 0#3 == 0x8000#16 && t.cond == 4#16) = true := by decide
-- V1: R1 = 0x0010, ADD R0, R1, #-16
theorem test_addi_zero : onNext (stepWord (run0.putReg 1#3 0x0010#16) 0x1070) (fun t =>
    t.reg 0#3 == 0#16 && t.cond == 2#16) = true := by decide
-- V2: R2 = 0xFF0F, R3 = 0x80F0, AND R1, R2, R3
theorem test_and : onNext (stepWord ((run0.putReg 2#3 0xFF0F#16).putReg 3#3 0x80F0#16) 0x5283) (fun t =>
    t.reg 1#3 == 0x8000#16 && t.cond == 4#16) = true := by decide
-- V2: R1 = 0x1234, AND R0, R1, #-16
theorem test_andi : onNext (stepWord (run0.putReg 1#3 0x1234#16) 0x5070) (fun t =>
    t.reg 0#3 == 0x1230#16 && t.cond == 1#16) = true := by decide
-- V3: R1 = 0x8000, NOT R1, R1
theorem test_not : onNext (stepWord (run0.putReg 1#3 0x8000#16) 0x927F) (fun t =>
    t.reg 1#3 == 0x7FFF#16 && t.cond == 1#16) = true := by decide
-- V5: at 0x0000, LD R0, #-256 wraps to 0xFF01
theorem test_ld_wraps : onNext (stepWord (memWrite 0xFF01#16 0x1234#16 { run0 with pc := 0#16 }) 0x2100) (fun t =>
    t.reg 0#3 == 0x1234#16) = true := by decide
-- V5: at 0xFFFF, LD R0, #-1 reads itself, pc wraps
theorem test_ld_top : onNext (stepWord { run0 with pc := 0xFFFF#16 } 0x21FF) (fun t =>
    t.reg 0#3 == 0x21FF#16 && t.pc == 0#16) = true := by decide
-- V5: LDI R1, #5 through 0x3006
theorem test_ldi : onNext (stepWord (memWrite 0x3006#16 0x300A#16 (memWrite 0x300A#16 5#16 run0)) 0xA205) (fun t =>
    t.reg 1#3 == 5#16 && t.cond == 1#16) = true := by decide
-- V5: R1 = 0x0010, LDR R0, R1, #-32 wraps to 0xFFF0
theorem test_ldr_wraps : onNext (stepWord (memWrite 0xFFF0#16 7#16 (run0.putReg 1#3 0x0010#16)) 0x6060) (fun t =>
    t.reg 0#3 == 7#16) = true := by decide
-- V5: at 0xFF00, LEA R0, #255 wraps to 0 and sets ZRO
theorem test_lea_wraps : onNext (stepWord { run0 with pc := 0xFF00#16, cond := 1#16 } 0xE0FF) (fun t =>
    t.reg 0#3 == 0#16 && t.cond == 2#16) = true := by decide
-- V6: at 0x3005, R1 = 0x000C, ST R1, #2
theorem test_st : onNext (stepWord { (run0.putReg 1#3 0x000C#16) with pc := 0x3005#16 } 0x3202) (fun t =>
    t.mem.read 0x3008#16 == 0x000C#16 && t.cond == 2#16) = true := by decide
-- V6: STI R3, #1 through 0x3002
theorem test_sti : onNext (stepWord (memWrite 0x3002#16 0x4000#16 (run0.putReg 3#3 0xBEEF#16)) 0xB601) (fun t =>
    t.mem.read 0x4000#16 == 0xBEEF#16 && t.mem.read 0x3002#16 == 0x4000#16) = true := by decide
-- V6: STR R0, R1, #-1 wraps to 0xFFFF
theorem test_str_wraps : onNext (stepWord (run0.putReg 0#3 0xABCD#16) 0x707F) (fun t =>
    t.mem.read 0xFFFF#16 == 0xABCD#16) = true := by decide
-- V7: NEG, BRn #5 taken; POS, BRn #5 not taken
theorem test_br : onNext (stepWord { run0 with cond := 4#16 } 0x0805) (fun t => t.pc == 0x3006#16) = true ∧
    onNext (stepWord { run0 with cond := 1#16 } 0x0805) (fun t => t.pc == 0x3001#16) = true := by decide
-- V7: BRz #-256 with ZRO
theorem test_br_back : onNext (stepWord run0 0x0500) (fun t => t.pc == 0x2F01#16) = true := by decide
-- V8: R3 = 0x4000, JMP R3
theorem test_jmp : onNext (stepWord (run0.putReg 3#3 0x4000#16) 0xC0C0) (fun t => t.pc == 0x4000#16) = true := by decide
-- V8: R7 = 0x1234, RET
theorem test_ret : onNext (stepWord (run0.putReg 7#3 0x1234#16) 0xC1C0) (fun t => t.pc == 0x1234#16) = true := by decide
-- V8: at 0x3002, JSR #8; and JSR #-1024
theorem test_jsr : onNext (stepWord { run0 with pc := 0x3002#16 } 0x4808) (fun t =>
    t.reg 7#3 == 0x3003#16 && t.pc == 0x300B#16 && t.cond == 2#16) = true ∧
    onNext (stepWord run0 0x4C00) (fun t => t.pc == 0x2C01#16) = true := by decide
-- V8: JSRR R7 with R7 = 0x1234, both values of JSRR_READS_BASE_FIRST
theorem test_jsrr_r7 : onNext (stepWord (run0.putReg 7#3 0x1234#16) 0x41C0) (fun t =>
    t.reg 7#3 == 0x3001#16 && t.pc == 0x3001#16) = true ∧
    onNext (stepWord { (run0.putReg 7#3 0x1234#16) with cfg := { defaultConfig with jsrrReadsBaseFirst := true } } 0x41C0)
      (fun t => t.reg 7#3 == 0x3001#16 && t.pc == 0x1234#16) = true := by decide
-- V8: at 0x8000, JSR #0 with LINK_SETS_COND
theorem test_link_sets_cond : onNext (stepWord
    { run0 with pc := 0x8000#16, cond := 1#16, cfg := { defaultConfig with linkSetsCond := true } } 0x4800) (fun t => t.cond == 4#16) = true := by decide
-- V9: LDI R0, #1 of KBSR, not ready: KBDR kept
theorem test_kbsr_not_ready : onNext (stepWord (memWrite 0xFE02#16 0x55#16 (memWrite 0x3002#16 0xFE00#16
    { run0 with reads := [.byte 0xC3#8], polls := { script := [false], rest := none } })) 0xA001) (fun t =>
    t.reg 0#3 == 0#16 && t.cond == 2#16 && t.mem.read 0xFE02#16 == 0x55#16 && t.reads.length == 1) = true := by decide
-- V9: ready, byte 0xC3
theorem test_kbsr_ready : onNext (stepWord (memWrite 0xFE02#16 0x55#16 (memWrite 0x3002#16 0xFE00#16
    { run0 with reads := [.byte 0xC3#8] })) 0xA001) (fun t =>
    t.reg 0#3 == 0x8000#16 && t.cond == 4#16 && t.mem.read 0xFE00#16 == 0x8000#16 &&
    t.mem.read 0xFE02#16 == 0xC3#16 && t.reads.isEmpty) = true := by decide
-- R53 with D3's alternative: the ready word is `old OR 0x8000`
theorem test_kbsr_keeps_old : onNext (exec (.ldr 0#3 1#3 0#6) (memWrite 0xFE00#16 0x0005#16 ((pending (.byte 0xC3#8)).putReg
    1#3 0xFE00#16 |> fun s => { s with cfg := { defaultConfig with kbsrReadyWord := .keepsOld } }))) (fun t =>
    t.reg 0#3 == 0x8005#16 && t.mem.read 0xFE02#16 == 0xC3#16) = true := by decide
-- V9: ready, InputRead answers Fail
theorem test_kbsr_fail : onNext (stepWord (memWrite 0xFE02#16 0x55#16 (memWrite 0x3002#16 0xFE00#16
    { run0 with reads := [.fail] })) 0xA001) (fun t =>
    t.run == .halted .ioError && t.mem.read 0xFE00#16 == 0x8000#16 && t.mem.read 0xFE02#16 == 0x55#16 &&
    t.reg 0#3 == 0#16) = true := by decide
-- V10: `30 00 F0 25` loads; the word is at the origin
theorem test_load : onNext (step (State.reset.presentImage (.bytes [0x30#8, 0x00#8, 0xF0#8, 0x25#8]))) (fun t =>
    t.run == .running && t.pc == 0x3000#16 && t.mem.read 0x3000#16 == 0xF025#16) = true := by decide
-- V10: `30 00 F0` is an ImageError; `FF FF 12 34 56 78` wraps
theorem test_load_odd : (load (.bytes [0x30#8, 0x00#8, 0xF0#8]) State.reset).run = .imageError ∧
    (load (.bytes [0xFF#8, 0xFF#8, 0x12#8, 0x34#8, 0x56#8, 0x78#8]) State.reset).mem.read 0#16 = 0x5678#16 := by decide
-- V11: HALT, and 0xFF25 is HALT too
theorem test_halt : onNext (stepWord run0 0xFF25) (fun t => t.run == .halted .haltTrap && t.reg 7#3 == 0x3001#16 &&
    t.pc == 0x3001#16 && t.output == [.notice .haltNotice]) = true := by decide
-- V11: TRAP x26
theorem test_unimplemented : onNext (stepWord run0 0xF026) (fun t =>
    t.run == .halted (.unimplementedTrap 0x26#8) && t.reg 7#3 == 0x3001#16 && t.output.isEmpty) = true := by decide
-- V11: GETC of 0x80 is zero-extended; without input it waits
theorem test_getc : onNext (stepWord { run0 with cond := 4#16, reads := [.byte 0x80#8] } 0xF020) (fun t =>
    t.reg 0#3 == 0x80#16 && t.cond == 1#16 && t.run == .running) = true ∧
    onNext (stepWord run0 0xF020) (fun t => t.run == .waiting .getc) = true := by decide
-- V11: OUT of R0 = 0x1241
theorem test_out : onNext (stepWord (run0.putReg 0#3 0x1241#16) 0xF021) (fun t =>
    t.output == [.byte 0x41#8] && t.reg 0#3 == 0x1241#16) = true := by decide
-- V11: IN of 0x37
theorem test_in : onNext (stepWord { run0 with cond := 4#16, reads := [.byte 0x37#8] } 0xF023) (fun t =>
    t.output == [.notice .inPrompt, .byte 0x37#8] && t.reg 0#3 == 0x37#16 && t.cond == 1#16) = true := by decide
-- V11: PUTS of 0x0100, 0x4142, 0x0000, and over the wrap
theorem test_puts : onNext (stepWord (memWrite 0x4000#16 0x0100#16 (memWrite 0x4001#16 0x4142#16
    (run0.putReg 0#3 0x4000#16))) 0xF022) (fun t => t.output == [.byte 0#8, .byte 0x42#8]) = true := by decide
theorem test_puts_wraps : onNext (stepWord (memWrite 0xFFFF#16 0x41#16 (run0.putReg 0#3 0xFFFF#16)) 0xF022) (fun t =>
    t.output == [.byte 0x41#8]) = true := by decide
-- V11: PUTSP of 0x4100, 0x0041, 0x0000
theorem test_putsp : onNext (stepWord (memWrite 0x4000#16 0x4100#16 (memWrite 0x4001#16 0x0041#16
    (run0.putReg 0#3 0x4000#16))) 0xF024) (fun t =>
    t.output == [.byte 0#8, .byte 0x41#8, .byte 0x41#8]) = true := by decide
-- V12: 0x8FFF and 0xD000
theorem test_rti_res : onNext (stepWord run0 0x8FFF) (fun t =>
    t.run == .halted (.unsupportedOpcode 0x8#4) && t.pc == 0x3001#16) = true ∧
    onNext (stepWord run0 0xD000) (fun t => t.run == .halted (.unsupportedOpcode 0xD#4)) = true := by decide

/-! ## Witnesses: a state and operands that meet each statement's hypotheses -/

theorem witness_not_started : State.reset.run = .notStarted ∧ State.reset.image = none ∧
    (State.reset.presentImage .unreadable).image = some .unreadable := by decide
theorem witness_halted : ({ run0 with run := .halted .haltTrap } : State).run = .halted .haltTrap := rfl
theorem witness_fetch : run0.run = .running ∧ run0.cfg.canonicalOnly = false ∧
    memRead run0.pc run0 = .done 0#16 run0 := ⟨rfl, rfl, rfl⟩
theorem witness_step : run0.run = .running ∧ run0.cfg.canonicalOnly = false ∧ run0.pc ≠ 0xFE00#16 ∧
    (Instr.br false false false 0#9).wellFormed = true ∧
    decode (run0.mem.read run0.pc) = .br false false false 0#9 := by decide
theorem witness_failed_fetch : ({ run0 with pc := 0xFE00#16, reads := [.fail] } : State).inputPoll.1 = true ∧
    ({ run0 with pc := 0xFE00#16, reads := [.fail] } : State).nextAnswer = some .fail := by decide
theorem witness_canonical_only : memRead run0.pc { run0 with cfg := { defaultConfig with canonicalOnly := true } } =
    .done 0#16 { run0 with cfg := { defaultConfig with canonicalOnly := true } } := rfl
theorem witness_well_formed : Instr.wellFormed (.jmp 6#3) = true := by decide
theorem witness_row : 0xC1C0#16 &&& (Instr.jmp 0#3).mask = (Instr.jmp 0#3).pattern ∧ decode 0xC1C0#16 = .ret := by
  decide
theorem witness_flags : (0x8000#16).getLsbD 15 = true ∧ (0x7FFF#16).getLsbD 15 = false ∧ 0x7FFF#16 ≠ 0x0000#16 := by
  decide
theorem witness_plain_read : (0xFDFF#16 : Word) ≠ 0xFE00#16 ∧ (0xFE01#16 : Word) ≠ 0xFE00#16 := by decide
theorem witness_poll_not_ready : after0.cfg.kbsrReadyWord = .cleared ∧ after0.inputPoll.1 = false := by decide
theorem witness_poll_ready : (pending (.byte 0xFF#8)).inputPoll.1 = true ∧
    (pending (.byte 0xFF#8)).nextAnswer = some (.byte 0xFF#8) ∧
    ({ defaultConfig with kbsrReadyWord := .keepsOld } : Config).kbsrReadyWord = .keepsOld := by decide
theorem witness_poll_fails : (pending .fail).inputPoll.1 = true ∧ (pending .fail).nextAnswer = some .fail := by decide
theorem witness_load_plain : after0.pc + (0x1FF#9).signExtend 16 ≠ 0xFE00#16 ∧
    after0.mem.read (after0.pc + (0x1FF#9).signExtend 16) ≠ 0xFE00#16 ∧
    after0.reg 0#3 + (0x20#6).signExtend 16 ≠ 0xFE00#16 := by decide
theorem witness_ldi_pointer : memRead (after0.pcRel9 0#9) (memWrite 0x3001#16 0x3011#16 after0) =
    .done 0x3011#16 (memWrite 0x3001#16 0x3011#16 after0) ∧
    (memWrite 0x3001#16 0x3011#16 after0).pcRel9 0x10#9 = 0x3011#16 ∧
    memRead 0x3011#16 (memWrite 0x3001#16 0x3011#16 after0) = .done 0#16 (memWrite 0x3001#16 0x3011#16 after0) :=
  ⟨rfl, by decide, rfl⟩
theorem witness_store_next : after0.run = .running ∧ after0.cfg.canonicalOnly = false ∧ after0.pc ≠ 0xFE00#16 ∧
    storeAddress (.st 0#3 0#9) after0 = some after0.pc ∧
    storeAddress (.sti 0#3 0#9) (memWrite 0x3001#16 0x3001#16 after0) = some after0.pc ∧
    storeAddress (.str 0#3 1#3 1#6) (after0.putReg 1#3 0x3000#16) = some after0.pc := by decide
theorem witness_store_next_exec : exec (.st 0#3 0#9) after0 = .next (memWrite 0x3001#16 0#16 after0) := rfl
theorem witness_cond : condLegal 1#16 = true ∧ condLegal 2#16 = true ∧ condLegal 4#16 = true ∧
    condLegal 3#16 = false := by decide
theorem witness_jsrr : (7#3 : Reg) = 7#3 ∧ (6#3 : Reg) ≠ 7#3 ∧ after0.cfg.jsrrReadsBaseFirst = false ∧
    ({ defaultConfig with jsrrReadsBaseFirst := true } : Config).jsrrReadsBaseFirst = true := by decide
theorem witness_write_accepted : after0.writeAnswer 0 = .ok ∧ after0.writeAnswer 1 = .ok := by decide
theorem witness_write_fails : mute.writeAnswer 0 = .fail := by decide
theorem witness_no_input : after0.nextAnswer = none := by decide
theorem witness_input : (pending (.byte 0xFF#8)).nextAnswer = some (.byte 0xFF#8) ∧
    (pending .fail).nextAnswer = some .fail ∧
    ({ after0 with tail := .repeats (.byte 0#8) } : State).nextAnswer = some (.byte 0#8) := by decide
/-- Input pending, and a host that fails the second write. -/
def echoFails : State := { pending (.byte 0x37#8) with writes := { script := [.ok, .fail], rest := none } }
theorem witness_echo_fails : echoFails.writeAnswer 0 = .ok ∧ echoFails.writeAnswer 1 = .fail ∧
    echoFails.nextAnswer = some (.byte 0x37#8) := by decide
theorem witness_string : stringAt (memWrite 0xFFFF#16 0x0041#16 after0).mem 0xFFFF#16 [0x0041#16] := by
  refine ⟨fun i h => ?_, by decide, fun i h => ?_⟩
  · obtain rfl : i = 0 := by simpa using h
    exact ⟨rfl, by simp⟩
  · obtain rfl | rfl : i = 0 ∨ i = 1 := by simp at h; omega
    · decide
    · decide
theorem witness_empty_string : stringAt after0.mem (after0.reg 0#3) [] := by
  refine ⟨fun i h => absurd h (Nat.not_lt_zero i), by decide, fun i h => ?_⟩
  obtain rfl : i = 0 := by simpa using h
  decide
theorem witness_string_writes : ∀ i, i < [(0x0041#16 : Word)].length →
    (memWrite 0xFFFF#16 0x0041#16 after0).writeAnswer i = .ok := by
  intro i h
  obtain rfl : i = 0 := by simpa using h
  decide
theorem witness_string_fails : stringAt (memWrite 0#16 0x4142#16 echoFails).mem (echoFails.reg 0#3) [0x4142#16] ∧
    1 < (stringBytes .putsp [0x4142#16]).length ∧ echoFails.writeAnswer 0 = .ok ∧ echoFails.writeAnswer 1 = .fail := by
  refine ⟨⟨fun i h => ?_, by decide, fun i h => ?_⟩, by decide, by decide, by decide⟩
  · obtain rfl : i = 0 := by simpa using h
    exact ⟨rfl, by simp⟩
  · obtain rfl | rfl : i = 0 ∨ i = 1 := by simp at h; omega
    · decide
    · decide
theorem witness_string_polls : (after0.putReg 0#3 0xFE00#16).reg 0#3 = 0xFE00#16 ∧
    (after0.putReg 0#3 0xFE00#16).inputPoll.1 = false ∧ ((pending .fail).putReg 0#3 0xFE00#16).inputPoll.1 = true ∧
    ((pending .fail).putReg 0#3 0xFE00#16).nextAnswer = some .fail := by decide
theorem witness_string_key : ((pending (.byte 1#8)).putReg 0#3 0xFE00#16).inputPoll.1 = true ∧
    ((pending (.byte 1#8)).putReg 0#3 0xFE00#16).nextAnswer = some (.byte 1#8) ∧
    (pending (.byte 1#8)).inputPoll.2.writeAnswer 0 = .ok ∧ (pending (.byte 1#8)).inputPoll.2.writeAnswer 1 = .ok := by
  decide
theorem witness_string_after_key :
    stringAt ((pending (.byte 1#8)).mem.write 0xFE02#16 ((1#8).setWidth 16)) 0xFE01#16 [] := by
  refine ⟨fun i h => absurd h (Nat.not_lt_zero i), by decide, fun i h => ?_⟩
  obtain rfl : i = 0 := by simpa using h
  decide
theorem witness_unimplemented : (0x1F#8).toNat < 0x20 ∧ 0x25 < (0x26#8).toNat ∧ ¬ (0x20#8).toNat < 0x20 ∧
    ¬ 0x25 < (0x25#8).toNat := by decide
theorem witness_waiting : ({ after0 with run := .waiting .getc } : State).nextAnswer = none ∧
    ({ echoFails.drawWrite with run := .waiting .inEcho } : State).writeAnswer 0 = .fail ∧
    ({ echoFails.drawWrite with run := .waiting .inEcho } : State).nextAnswer = some (.byte 0x37#8) := by decide
theorem witness_writing : ({ after0 with run := .writing .puts 0x4000#16 } : State).run = .writing .puts 0x4000#16 ∧
    after0.mem.read 0x4000#16 = 0#16 := by decide

/-- `n` words of value 1 from address `a` on. -/
def ones (a n : Nat) : Memory := (List.range' a n).map fun k => (k, 1#16)
theorem ones_read (n : Nat) : ∀ (a : Nat) (x : Word), a ≤ x.toNat → x.toNat < a + n → (ones a n).read x = 1#16 := by
  induction n with
  | zero => intro a x h h'; omega
  | succ n ih =>
    intro a x h h'
    show (if a = x.toNat then 1#16 else (ones (a + 1) n).read x) = 1#16
    split
    · rfl
    · exact ih (a + 1) x (by omega) (by omega)
theorem witness_unending : ({ after0 with mem := ones 0 65536, tail := .repeats (.byte 0x41#8) } : State).Unending where
  words a _ := by
    rw [show ({ after0 with mem := ones 0 65536, tail := .repeats (.byte 0x41#8) } : State).mem.read a = 1#16 from
      ones_read 65536 0 a (Nat.zero_le _) (by have := a.isLt; omega)]
    decide
  polls := ⟨fun _ h => by simp [after0, run0] at h, rfl⟩
  keys _ h := by simp [after0, run0, State.reset] at h
  keyHeld := ⟨0x41#8, rfl, by decide⟩
  writes := ⟨fun _ h => by simp [after0, run0] at h, rfl⟩
theorem witness_image_length : ([0xF025#16] : List Word).length ≤ 65536 := by decide
theorem witness_bad_image : ImageStream.bytes [0x30#8, 0x00#8, 0xF0#8] =
    .bytes (imageBytes ([0x3000#16] : List Word) ++ [0xF0#8]) := by decide
theorem witness_invariant : run0.Inv := by unfold State.Inv; decide
theorem witness_step_next : step run0 = .next after0 := rfl
theorem witness_exec_next : after0.cfg.linkSetsCond = false ∧ exec (.addImm 0#3 0#3 0#5) after0 =
    .next (after0.setReg 0#3 0#16) := ⟨rfl, rfl⟩
theorem witness_other_address : (0xFE01#16 : Word) ≠ 0xFE00#16 ∧ (0xFE01#16 : Word) ≠ 0xFE02#16 ∧
    storeAddress (.st 0#3 0#9) after0 ≠ some 0xFE01#16 := by decide
theorem witness_halting_exec : after0.run = .running ∧
    onNext (exec (.trap 0x25#8) after0) (fun t => t.run == .halted .haltTrap) = true := by decide

end Sys2Proof.Tests
end

/-! # Scope: the flag of a written word, and what every step keeps of the parameters and the ports -/

namespace Sys2Proof.Machine

/-! ## The flag (00_scope.md R14) -/

@[simp] theorem flag_zero : flag 0#16 = condZro := rfl

theorem flag_of_ne_zero {v : Word} (h : v ≠ 0#16) : flag v = if v.getLsbD 15 then condNeg else condPos := by
  simp [flag, h, BitVec.msb_eq_getLsbD_last]

/-- Settles O15, by the two cases of `flag`: zero, and a nonzero word by its bit 15. -/
theorem flagOfAWrittenWord : Obligations.FlagOfAWrittenWord := by
  unfold Obligations.FlagOfAWrittenWord
  refine fun v => ⟨?zero, fun hbit => ?negative, fun hne hbit => ?positive⟩
  case zero =>
    rintro rfl
    exact flag_zero
  case negative =>
    have hne : v ≠ 0#16 := by rintro rfl; simp at hbit
    exact (flag_of_ne_zero hne).trans (if_pos hbit)
  case positive => exact (flag_of_ne_zero hne).trans (if_neg (ne_true_of_eq_false hbit))

/-! ## Parameters and the order of the ports

Weaker than `PortFrame`: registers, PC, COND, memory and the image may change freely, so that every instruction and the
loader keep it. -/

/-- From `s` to `t` the parameters are the same, output only grew, and input was taken from the front only
(00_scope.md R6, R8; 10_state.md R32). -/
structure PortOrder (s t : State) : Prop where
  cfg : t.cfg = s.cfg
  output : s.output <+: t.output
  reads : t.reads <:+ s.reads
  tail : t.tail = s.tail

namespace PortOrder

variable {s t u : State}

theorem of_eq (hcfg : t.cfg = s.cfg) (houtput : t.output = s.output) (hreads : t.reads = s.reads)
    (htail : t.tail = s.tail) : PortOrder s t :=
  ⟨hcfg, houtput ▸ List.prefix_refl _, hreads ▸ List.suffix_refl _, htail⟩

theorem refl (s : State) : PortOrder s s := of_eq rfl rfl rfl rfl

theorem trans (h : PortOrder s t) (k : PortOrder t u) : PortOrder s u :=
  ⟨k.cfg.trans h.cfg, h.output.trans k.output, k.reads.trans h.reads, k.tail.trans h.tail⟩

theorem setReg (h : PortOrder s t) (r : Reg) (v : Word) : PortOrder s (t.setReg r v) :=
  h.trans (of_eq rfl rfl rfl rfl)

theorem setPc (h : PortOrder s t) (a : Word) : PortOrder s (t.setPc a) := h.trans (of_eq rfl rfl rfl rfl)

theorem setRun (h : PortOrder s t) (r : RunState) : PortOrder s { t with run := r } :=
  h.trans (of_eq rfl rfl rfl rfl)

theorem memWrite (h : PortOrder s t) (a v : Word) : PortOrder s (memWrite a v t) := h.trans (of_eq rfl rfl rfl rfl)

theorem link (h : PortOrder s t) (v : Word) : PortOrder s (t.link v) :=
  h.trans (of_eq (link_cfg t v) (link_output t v) (link_reads t v) (link_tail t v))

end PortOrder

theorem PortFrame.portOrder {s t : State} (h : PortFrame s t) : PortOrder s t := ⟨h.cfg, h.output, h.reads, h.tail⟩

/-! ### Reads, loads and services -/

theorem memRead_portOrder (a : Word) (s : State) : (memRead a s).Leaves (PortOrder s) :=
  (memRead_leaves a s).mono fun _ h => h.portOrder

theorem loadWord_portOrder (dr : Reg) (ea : Word) (s : State) : (loadWord dr ea s).Leaves (PortOrder s) :=
  (memRead_portOrder ea s).andThen (fun v _ h => h.setReg dr v) fun _ h => h

theorem inputRead_portOrder (w : WaitFor) (s : State) : (inputRead w s).Leaves (PortOrder s) :=
  (inputRead_leaves w s).mono fun _ h => h.portOrder

theorem emit_portOrder (e : OutEvent) (s : State) : (emit e s).Leaves (PortOrder s) :=
  (emit_leaves e s).mono fun _ h => h.portOrder

theorem getc_portOrder (s : State) : (getc s).Leaves (PortOrder s) :=
  (inputRead_portOrder _ s).andThen (fun b _ h => h.setReg 0#3 (zext8 b)) fun _ h => h

theorem inAfterPrompt_portOrder (s : State) : (inAfterPrompt s).Leaves (PortOrder s) := by
  refine (inputRead_portOrder _ s).andThen (fun b s1 read => ?_) fun _ h => h
  refine ((emit_portOrder (.byte b) s1).mono fun _ echo => read.trans echo).andThen (fun _ s2 h => ?_) fun _ h => h
  exact putChar_leaves (h.setReg 0#3 (zext8 b))

theorem inService_portOrder (s : State) : (inService s).Leaves (PortOrder s) :=
  (emit_portOrder _ s).andThen (fun _ s1 prompt => (inAfterPrompt_portOrder s1).mono fun _ h => prompt.trans h)
    fun _ h => h

theorem stringLoop_portOrder (k : StringService) (fuel : Nat) (a : Word) (s : State) :
    (stringLoop k fuel a s).Leaves (PortOrder s) :=
  (stringLoop_leaves k fuel a s).mono fun _ h => h.portOrder

theorem service_portOrder (vect : BitVec 8) (s : State) : (service vect s).Leaves (PortOrder s) := by
  unfold service
  split
  · exact getc_portOrder s
  · exact emit_portOrder _ s
  · exact stringLoop_portOrder .puts _ _ s
  · exact inService_portOrder s
  · exact stringLoop_portOrder .putsp _ _ s
  · exact (halt_leaves s).mono fun _ h => h.portOrder
  · exact (PortOrder.refl s).setRun _

/-! ### Instructions and the other steps -/

theorem exec_portOrder {i : Instr} {s t : State} (h : exec i s = .next t) : PortOrder s t := by
  have same := PortOrder.refl s
  cases i with
  | addReg | addImm | andReg | andImm | not | lea => cases h; exact same.setReg _ _
  | ld | ldr => exact (loadWord_portOrder _ _ s).outcome h
  | ldi dr off9 =>
    refine Op.Leaves.outcome ((memRead_portOrder _ s).andThen (fun ea s1 pointer => ?_) fun _ h => h) h
    exact (loadWord_portOrder dr ea s1).mono fun _ load => pointer.trans load
  | st | str => cases h; exact same.memWrite _ _
  | sti sr off9 =>
    refine Op.Leaves.outcome ((memRead_portOrder _ s).andThen (fun ea s1 pointer => ?_) fun _ h => h) h
    exact pointer.memWrite ea (s1.reg sr)
  | br n z p off9 =>
    cases h
    split
    · exact same.setPc _
    · exact same
  | jmp | ret => cases h; exact same.setPc _
  | jsr | jsrr => cases h; exact (same.link s.pc).setPc _
  | trap vect => exact (same.link s.pc).trans ((service_portOrder vect _).outcome h)
  | rti | res => cases h; exact same.setRun _

theorem load_portOrder (img : ImageStream) (s : State) : PortOrder s (load img s) := by
  unfold load
  split <;> exact .of_eq rfl rfl rfl rfl

theorem resume_portOrder {w : WaitFor} {s t : State} (h : resume w s = .next t) : PortOrder s t := by
  refine ((PortOrder.refl s).setRun .running).trans ?_
  cases w with
  | getc => exact (getc_portOrder _).outcome h
  | inEcho => exact (inAfterPrompt_portOrder _).outcome h

theorem continueString_portOrder {k : StringService} {a : Word} {s t : State} (h : continueString k a s = .next t) :
    PortOrder s t :=
  ((PortOrder.refl s).setRun .running).trans ((stringLoop_portOrder k _ a _).outcome h)

theorem step_portOrder {s t : State} (h : step s = .next t) : PortOrder s t := by
  rcases step_cases h with ⟨img, -, -, rfl⟩ | ⟨w, -, hw⟩ | ⟨k, a, -, hk⟩ | ⟨w, u, -, hm, hx⟩ | ⟨-, hm⟩
  · exact load_portOrder img s
  · exact resume_portOrder hw
  · exact continueString_portOrder hk
  · have fetched : PortOrder s u := by simpa [hm, Op.Leaves] using memRead_portOrder s.pc s
    exact (fetched.setPc _).trans (exec_portOrder hx)
  · simpa [hm, Op.Leaves] using memRead_portOrder s.pc s

/-- Settles O57, by the cases of a step: the load, a wait or a string that goes on, a fetched instruction, and a fetch
whose poll failed each keep `PortOrder`. -/
theorem everyStepKeepsParametersAndPortOrder : Obligations.EveryStepKeepsParametersAndPortOrder := by
  unfold Obligations.EveryStepKeepsParametersAndPortOrder
  intro s t h
  obtain ⟨hcfg, houtput, hreads, htail⟩ := step_portOrder h
  exact ⟨hcfg, houtput, hreads, htail⟩

end Sys2Proof.Machine

/-! # State: registers, COND, PC and the run state over a step -/

namespace Sys2Proof.Machine

/-! ## What an instruction does to registers, COND and PC (10_state.md R23 to R29)

`exec_effect` says once what any instruction can do, as far as registers, COND, PC and the canonical form of memory go;
the invariant and the table of R25 are read off it. -/

/-- The step ended before the destination was written: an IoError stopped the run, or an input is waited for. -/
def State.CutShort (s : State) : Prop := s.run = .halted .ioError ∨ ∃ w, s.run = .waiting w

/-- From `s` on, the operation uses only the keyboard and the ports, and where it ends the step it cuts it short. -/
def Op.PortOnly {α : Type} (s : State) : Op α → Prop
  | .done _ t => PortFrame s t
  | .ended t => PortFrame s t ∧ t.CutShort

/-- What an instruction or a service whose flag-path destination is `r` does: the ports are used, then `r` and COND are
written; or the step is cut short and neither is. -/
inductive DestEffect (r : Reg) (s : State) : State → Prop where
  | written {u : State} (v : Word) (ports : PortFrame s u) : DestEffect r s (u.setReg r v)
  | cutShort {t : State} (ports : PortFrame s t) (cut : t.CutShort) : DestEffect r s t

/-- What the instruction `i` does from `s` on, its link write already made, by the columns of R25. -/
inductive InstrEffect (i : Instr) (s : State) : State → Prop where
  | dest {r : Reg} {t : State} (hdest : destReg i = some r) (effect : DestEffect r s t) : InstrEffect i s t
  | jump (a : Word) (hdest : destReg i = none) (transfers : transfersControl i = true) : InstrEffect i s (s.setPc a)
  | store {u : State} (a v : Word) (hdest : destReg i = none) (ports : PortFrame s u) : InstrEffect i s (memWrite a v u)
  | ports {t : State} (hdest : destReg i = none) (ports : PortFrame s t) : InstrEffect i s t

/-- The state in which the instruction goes on once it has made its link write, if it makes one (R24). -/
def State.linkedFor (s : State) (i : Instr) : State := if linksR7 i then s.link s.pc else s

/-! ### Port operations, and what follows them -/

theorem Op.PortOnly.of_leaves {α : Type} {s : State} {x : Op α} (h : x.Leaves (PortFrame s))
    (cut : ∀ t, x = .ended t → t.CutShort) : x.PortOnly s := by
  cases x with
  | done a t => exact h
  | ended t => exact ⟨h, cut t rfl⟩

/-- What follows port operations writes the destination, if they let it. -/
theorem Op.PortOnly.andThen_dest {α β : Type} {r : Reg} {s : State} {x : Op α} {f : α → State → Op β}
    (hx : x.PortOnly s) (hf : ∀ a u, PortFrame s u → (f a u).Leaves (DestEffect r s)) :
    (x.andThen f).Leaves (DestEffect r s) := by
  cases x with
  | done a u => exact hf a u hx
  | ended t =>
    obtain ⟨ports, cut⟩ := hx
    exact .cutShort ports cut

theorem DestEffect.after {r : Reg} {s u t : State} (before : PortFrame s u) (h : DestEffect r u t) :
    DestEffect r s t := by
  cases h with
  | written v ports => exact .written v (before.trans ports)
  | cutShort ports cut => exact .cutShort (before.trans ports) cut

theorem memRead_portFrame (a : Word) (s : State) : (memRead a s).Leaves (PortFrame s) :=
  (memRead_leaves a s).mono fun _ h => h.toPortFrame

theorem memRead_done_portFrame {a w : Word} {s u : State} (h : memRead a s = .done w u) : PortFrame s u := by
  simpa only [h, Op.Leaves] using memRead_portFrame a s

theorem memRead_ended_portFrame {a : Word} {s t : State} (h : memRead a s = .ended t) : PortFrame s t := by
  simpa only [h, Op.Leaves] using memRead_portFrame a s

theorem memRead_portOnly (a : Word) (s : State) : (memRead a s).PortOnly s :=
  .of_leaves (memRead_portFrame a s) fun _ h => .inl (memRead_ended h).2

theorem inputRead_portOnly (w : WaitFor) (s : State) : (inputRead w s).PortOnly s := by
  refine .of_leaves ((inputRead_leaves w s).mono fun _ h => h.toPortFrame) fun t ht => ?_
  rcases inputRead_cases w s with ⟨-, h⟩ | ⟨b, -, h⟩ | ⟨-, h⟩ <;> rw [h] at ht <;> cases ht
  · exact .inr ⟨w, rfl⟩
  · exact .inl rfl

theorem emit_portOnly (e : OutEvent) (s : State) : (emit e s).PortOnly s := by
  refine .of_leaves (emit_leaves e s) fun t ht => ?_
  rcases emit_cases e s with ⟨-, h⟩ | ⟨-, h⟩ <;> rw [h] at ht <;> cases ht
  exact .inl rfl

/-! ### Loads and services -/

theorem loadWord_dest (dr : Reg) (ea : Word) (s : State) : (loadWord dr ea s).Leaves (DestEffect dr s) :=
  (memRead_portOnly ea s).andThen_dest fun v _ read => .written v read

theorem getc_dest (s : State) : (getc s).Leaves (DestEffect 0#3 s) :=
  (inputRead_portOnly .getc s).andThen_dest fun b _ read => .written (zext8 b) read

theorem inAfterPrompt_dest (s : State) : (inAfterPrompt s).Leaves (DestEffect 0#3 s) := by
  refine (inputRead_portOnly .inEcho s).andThen_dest fun b u read => ?_
  have echoed : ((outputByte b u).andThen fun _ u2 => putChar b u2).Leaves (DestEffect 0#3 u) :=
    (emit_portOnly (.byte b) u).andThen_dest fun _ _ echo => .written (zext8 b) echo
  exact echoed.mono fun _ h => h.after read

theorem inService_dest (s : State) : (inService s).Leaves (DestEffect 0#3 s) :=
  (emit_portOnly (.notice .inPrompt) s).andThen_dest fun _ u prompt =>
    (inAfterPrompt_dest u).mono fun _ h => h.after prompt

/-- GETC and IN write R0; every other service uses the ports only (43_trap.md R182 to R188). -/
theorem service_effect (vect : BitVec 8) (s : State) : (service vect s).Leaves (InstrEffect (.trap vect) s) := by
  have portsOnly {x : Op Unit} (hdest : destReg (.trap vect) = none) (h : x.Leaves (PortFrame s)) :
      x.Leaves (InstrEffect (.trap vect) s) := h.mono fun _ k => .ports hdest k
  have vectIs {n : Nat} (hn : n < 256) (h : vect.toNat = n) : vect = BitVec.ofNat 8 n :=
    BitVec.eq_of_toNat_eq (by simp [h, Nat.mod_eq_of_lt hn])
  unfold service
  split
  case h_1 h => exact (getc_dest s).mono fun _ k => .dest (by rw [vectIs (by decide) h]; rfl) k
  case h_2 h => exact portsOnly (by rw [vectIs (by decide) h]; rfl) (out_leaves s)
  case h_3 h => exact portsOnly (by rw [vectIs (by decide) h]; rfl) (puts_leaves s)
  case h_4 h => exact (inService_dest s).mono fun _ k => .dest (by rw [vectIs (by decide) h]; rfl) k
  case h_5 h => exact portsOnly (by rw [vectIs (by decide) h]; rfl) (putsp_leaves s)
  case h_6 h => exact portsOnly (by rw [vectIs (by decide) h]; rfl) (halt_leaves s)
  case h_7 hgetc _ _ hin _ _ =>
    have hdest : destReg (.trap vect) = none := if_neg (by rintro (rfl | rfl); exacts [hgetc rfl, hin rfl])
    exact portsOnly hdest ((PortFrame.refl s).setRun _)

/-! ### Instructions -/

/-- Everything an instruction can do to registers, COND and PC, by the columns of R25. -/
theorem exec_effect {i : Instr} {s t : State} (h : exec i s = .next t) : InstrEffect i (s.linkedFor i) t := by
  have same := PortFrame.refl s
  cases i with
  | addReg | addImm | andReg | andImm | not | lea => cases h; exact .dest rfl (.written _ same)
  | ld dr _ | ldr dr _ _ => exact .dest rfl ((loadWord_dest dr _ s).outcome h)
  | ldi dr off9 =>
    have loads : ((memRead (s.pcRel9 off9) s).andThen fun ea u => loadWord dr ea u).Leaves (DestEffect dr s) :=
      (memRead_portOnly _ s).andThen_dest fun ea u pointer => (loadWord_dest dr ea u).mono fun _ k => k.after pointer
    exact .dest rfl (loads.outcome h)
  | st | str => cases h; exact .store _ _ rfl same
  | sti sr off9 =>
    refine Op.Leaves.outcome ((memRead_portFrame _ s).andThen (fun ea u pointer => ?_) fun _ k => .ports rfl k) h
    exact .store ea (u.reg sr) rfl pointer
  | br n z p off9 =>
    cases h
    split
    · exact .jump _ rfl rfl
    · exact .jump s.pc rfl rfl
  | jmp | ret | jsr | jsrr => cases h; exact .jump _ rfl rfl
  | trap vect => exact (service_effect vect (s.link s.pc)).outcome h
  | rti | res => cases h; exact .ports rfl (same.setRun _)

/-! ## The invariant (R29; log 1) -/

namespace State.Inv

variable {s t : State}

theorem ports (h : s.Inv) (frame : PortFrame s t) : t.Inv := by
  obtain ⟨hmem, hcond⟩ := h
  exact ⟨frame.wf hmem, frame.cond ▸ hcond⟩

theorem setReg (h : s.Inv) (r : Reg) (v : Word) : (s.setReg r v).Inv := ⟨h.1, condLegal_flag v⟩

theorem setPc (h : s.Inv) (a : Word) : (s.setPc a).Inv := h

theorem setRun (h : s.Inv) (r : RunState) : ({ s with run := r } : State).Inv := h

theorem memWrite (h : s.Inv) (a v : Word) : (memWrite a v s).Inv := ⟨Memory.wf_write h.1 a v, h.2⟩

theorem link (h : s.Inv) (v : Word) : (s.link v).Inv := by
  unfold State.link
  split
  · exact h.setReg 7#3 v
  · exact h

theorem linkedFor (h : s.Inv) (i : Instr) : (s.linkedFor i).Inv := by
  unfold State.linkedFor
  split
  · exact h.link s.pc
  · exact h

theorem dest {r : Reg} (h : s.Inv) (effect : DestEffect r s t) : t.Inv := by
  cases effect with
  | written v frame => exact (h.ports frame).setReg r v
  | cutShort frame _ => exact h.ports frame

theorem exec {i : Instr} (h : s.Inv) (hx : exec i s = .next t) : t.Inv := by
  have linked := h.linkedFor i
  cases exec_effect hx with
  | dest _ effect => exact linked.dest effect
  | jump a => exact linked.setPc a
  | store a v _ frame => exact (linked.ports frame).memWrite a v
  | ports _ frame => exact linked.ports frame

theorem load (h : s.Inv) (img : ImageStream) : (load img s).Inv := by
  obtain ⟨hmem, hcond⟩ := h
  unfold Machine.load
  split
  · exact ⟨loadWords_wf _ _ _ hmem, hcond⟩
  all_goals exact ⟨hmem, hcond⟩

theorem resume {w : WaitFor} (h : s.Inv) (hw : resume w s = .next t) : t.Inv := by
  cases w with
  | getc => exact (h.setRun .running).dest ((getc_dest _).outcome hw)
  | inEcho => exact (h.setRun .running).dest ((inAfterPrompt_dest _).outcome hw)

theorem continueString {k : StringService} {a : Word} (h : s.Inv) (hk : continueString k a s = .next t) : t.Inv :=
  (h.setRun .running).ports ((stringLoop_leaves k stringPass a _).outcome hk)

end State.Inv

/-- Settles O55, by the cases of a step: the load writes words only, and a wait, a string that goes on, a fetch and an
instruction use the ports, write words, or write a register and its flag. -/
theorem everyStepKeepsTheInvariant : Obligations.EveryStepKeepsTheInvariant := by
  unfold Obligations.EveryStepKeepsTheInvariant
  intro s t inv h
  rcases step_cases h with ⟨img, -, -, rfl⟩ | ⟨w, -, hw⟩ | ⟨k, a, -, hk⟩ | ⟨w, u, -, hm, hx⟩ | ⟨-, hm⟩
  · exact inv.load img
  · exact inv.resume hw
  · exact inv.continueString hk
  · exact ((inv.ports (memRead_done_portFrame hm)).setPc _).exec hx
  · exact inv.ports (memRead_ended_portFrame hm)

/-- Settles O56: construction leaves memory empty and COND ZRO. -/
theorem invariantHoldsAtReset : Obligations.InvariantHoldsAtReset := ⟨Memory.wf_reset, rfl⟩

/-! ## The table of R25 -/

section

variable {i : Instr} {s : State}

theorem reg_linkedFor {r : Reg} (h : linksR7 i = true → r ≠ 7#3) : (s.linkedFor i).reg r = s.reg r := by
  unfold State.linkedFor
  split
  · rename_i hl
    exact (reg_link s r s.pc).trans (if_neg (h hl))
  · rfl

theorem reg_linkedFor_r7 (h : linksR7 i = true) : (s.linkedFor i).reg 7#3 = s.pc := by
  simp [State.linkedFor, h]

theorem linkedFor_cond (h : s.cfg.linkSetsCond = false) : (s.linkedFor i).cond = s.cond := by
  unfold State.linkedFor
  split <;> simp [h]

@[simp] theorem linkedFor_pc : (s.linkedFor i).pc = s.pc := by
  unfold State.linkedFor
  split <;> simp

/-- A linking instruction with a flag-path destination is GETC or IN, and its destination is R0. -/
theorem destReg_ne_r7_of_linksR7 {r : Reg} (hdest : destReg i = some r) (hl : linksR7 i = true) : r ≠ 7#3 := by
  cases i with
  | trap vect =>
    obtain ⟨-, rfl⟩ : (vect = 0x20#8 ∨ vect = 0x23#8) ∧ 0#3 = r := by simpa [destReg] using hdest
    decide
  | jsr | jsrr => cases hdest
  | _ => cases hl

end

namespace DestEffect

variable {r : Reg} {s t : State}

theorem reg (h : DestEffect r s t) {q : Reg} (hq : q ≠ r) : t.reg q = s.reg q := by
  cases h with
  | @written u v ports => exact ((reg_setReg u r q v).trans (if_neg hq)).trans (ports.reg q)
  | cutShort ports _ => exact ports.reg q

theorem pc (h : DestEffect r s t) : t.pc = s.pc := by
  cases h with
  | written v ports => exact ports.pc
  | cutShort ports _ => exact ports.pc

/-- COND follows the destination, or neither is written. -/
theorem cond (h : DestEffect r s t) : t.cond = flag (t.reg r) ∨ t.cond = s.cond ∧ t.reg r = s.reg r ∧ t.CutShort := by
  cases h with
  | @written u v _ => exact .inl (congrArg flag (reg_setReg_same u r v).symm)
  | cutShort ports cut => exact .inr ⟨ports.cond, ports.reg r, cut⟩

end DestEffect

namespace InstrEffect

variable {i : Instr} {s t : State}

theorem reg (h : InstrEffect i s t) {q : Reg} (hq : destReg i ≠ some q) : t.reg q = s.reg q := by
  cases h with
  | dest hdest effect => exact effect.reg fun e => hq (e ▸ hdest)
  | jump => rfl
  | store _ _ _ ports => exact ports.reg q
  | ports _ ports => exact ports.reg q

theorem cond_of_no_dest (h : InstrEffect i s t) (hdest : destReg i = none) : t.cond = s.cond := by
  cases h with
  | dest hsome => cases hdest.symm.trans hsome
  | jump => rfl
  | store _ _ _ ports => exact ports.cond
  | ports _ ports => exact ports.cond

theorem destEffect (h : InstrEffect i s t) {r : Reg} (hdest : destReg i = some r) : DestEffect r s t := by
  cases h with
  | dest hsome effect =>
    cases hdest.symm.trans hsome
    exact effect
  | jump _ hnone | store _ _ hnone | ports hnone => cases hdest.symm.trans hnone

theorem pc_of_no_transfer (h : InstrEffect i s t) (hpc : transfersControl i = false) : t.pc = s.pc := by
  cases h with
  | dest _ effect => exact effect.pc
  | jump _ _ transfers => cases hpc.symm.trans transfers
  | store _ _ _ ports => exact ports.pc
  | ports _ ports => exact ports.pc

end InstrEffect

/-- Settles O58: what an instruction does once its link write is made (`exec_effect`), and what the link write does, by
the columns of R25. -/
theorem instructionsWriteTheirRegistersOnly : Obligations.InstructionsWriteTheirRegistersOnly := by
  unfold Obligations.InstructionsWriteTheirRegistersOnly
  intro i s t hcfg h
  have effect := exec_effect h
  have hcond : (s.linkedFor i).cond = s.cond := linkedFor_cond hcfg
  refine ⟨fun r hdest hlink => ?others, fun hlink => ?link, fun hdest => ?noDest, fun r hdest => ?dest, fun hpc => ?pc⟩
  case others => exact (effect.reg hdest).trans (reg_linkedFor hlink)
  case link =>
    have hr7 : destReg i ≠ some 7#3 := fun hdest => destReg_ne_r7_of_linksR7 hdest hlink rfl
    exact (effect.reg hr7).trans (reg_linkedFor_r7 hlink)
  case noDest => exact (effect.cond_of_no_dest hdest).trans hcond
  case dest =>
    have hreg : (s.linkedFor i).reg r = s.reg r := reg_linkedFor (destReg_ne_r7_of_linksR7 hdest)
    have written := (effect.destEffect hdest).cond
    rw [hcond, hreg] at written
    exact written
  case pc => exact (effect.pc_of_no_transfer hpc).trans linkedFor_pc

/-! ## The two register writes (R22 to R24) -/

theorem onlyReg_link (s : State) (v : Word) : OnlyReg 7#3 s (s.link v) :=
  ⟨link_rest s v, fun r hr => (reg_link s r v).trans (if_neg hr)⟩

/-- Settles O16, by what each of the two writes does to a read and to COND, and its frame. -/
theorem registerWritesAndTheLinkWrite : Obligations.RegisterWritesAndTheLinkWrite := by
  unfold Obligations.RegisterWritesAndTheLinkWrite
  exact ⟨fun s r v => ⟨reg_setReg_same s r v, setReg_cond s r v, onlyReg_setReg r v s⟩,
    fun s v => ⟨reg_link_same s v, onlyReg_link s v, link_cond s v⟩⟩

/-! ## The run state and the step (R26, R30, R31) -/

/-- Settles O2: the fields of `State.reset`. -/
theorem portsAndParametersAtReset : Obligations.PortsAndParametersAtReset :=
  ⟨rfl, rfl, rfl, rfl, rfl, rfl, rfl, rfl⟩

/-- Settles O4: a step from Halted is the fault. -/
theorem haltedHasNoStep : Obligations.HaltedHasNoStep := by
  unfold Obligations.HaltedHasNoStep
  intro s r hrun
  simp only [step, hrun]

/-- With `CANONICAL_ONLY` false every fetched word is executed (30_encoding.md R88). -/
theorem step_of_memRead_done {s u : State} {w : Word} (hrun : s.run = .running) (hcfg : u.cfg.canonicalOnly = false)
    (hm : memRead s.pc s = .done w u) : step s = exec (decode w) u.advance := by
  have hf : fetch s = .done w u.advance := by simp [fetch, hm]
  simp [step, hrun, hf, decodeWith, hcfg]

/-- Settles O6: the read at PC leaves the parameters and PC, so the step is the decoded word's instruction at PC + 1. -/
theorem fetchThenIncrementThenExecute : Obligations.FetchThenIncrementThenExecute := by
  unfold Obligations.FetchThenIncrementThenExecute
  intro s u w hrun hcfg hm
  have read := memRead_done_portFrame hm
  have hadvance : u.advance = { u with pc := s.pc + 1#16 } := by rw [State.advance, State.setPc, read.pc]
  rw [← hadvance]
  exact step_of_memRead_done hrun (read.cfg ▸ hcfg) hm

/-! ## Waiting and going on (R30; 70_reset_and_hazards.md R262; log 14, 15) -/

theorem inputRead_none {w : WaitFor} {s : State} (h : s.nextAnswer = none) :
    inputRead w s = .ended { s with run := .waiting w } := by simp [inputRead, h]

theorem inputRead_byte {w : WaitFor} {s : State} {b : Byte} (h : s.nextAnswer = some (.byte b)) :
    inputRead w s = .done b s.takeInput := by simp [inputRead, h]

theorem inputRead_fail {w : WaitFor} {s : State} (h : s.nextAnswer = some .fail) :
    inputRead w s = .ended { s.takeInput with run := .halted .ioError } := by simp [inputRead, h, raise]

theorem takeInput_setRun (s : State) (r : RunState) :
    ({ s with run := r } : State).takeInput = { s.takeInput with run := r } := by
  unfold State.takeInput
  split <;> simp_all

section

variable {s : State}

theorem step_waiting {w : WaitFor} (hrun : s.run = .waiting w) : step s = resume w s := by
  simp only [step, hrun]

theorem step_writing {k : StringService} {a : Word} (hrun : s.run = .writing k a) : step s = continueString k a s := by
  simp only [step, hrun]

/-- Both waits go on at their read. -/
theorem resume_reads_first (w : WaitFor) (s : State) : ∃ f : Byte → State → Op Unit,
    resume w s = ((inputRead w { s with run := .running }).andThen f).outcome := by
  cases w <;> exact ⟨_, rfl⟩

theorem step_waiting_none {w : WaitFor} (hrun : s.run = .waiting w) (h : s.nextAnswer = none) : step s = .next s := by
  obtain ⟨f, hf⟩ := resume_reads_first w s
  rw [step_waiting hrun, hf, inputRead_none (s := { s with run := .running }) h, Op.andThen_ended, Op.outcome_ended,
    ← hrun]

theorem step_waiting_fail {w : WaitFor} (hrun : s.run = .waiting w) (h : s.nextAnswer = some .fail) :
    step s = .next { s.takeInput with run := .halted .ioError } := by
  obtain ⟨f, hf⟩ := resume_reads_first w s
  rw [step_waiting hrun, hf, inputRead_fail (s := { s with run := .running }) h, Op.andThen_ended, Op.outcome_ended,
    takeInput_setRun]

theorem step_waiting_getc_byte {b : Byte} (hrun : s.run = .waiting .getc) (h : s.nextAnswer = some (.byte b)) :
    step s = .next (({ s.takeInput with run := .running } : State).setReg 0#3 (zext8 b)) := by
  rw [step_waiting hrun, resume, getc, inputRead_byte (s := { s with run := .running }) h, takeInput_setRun]
  rfl

/-- A waiting IN that gets a byte goes on to its echo. -/
theorem step_waiting_in_byte {b : Byte} (hrun : s.run = .waiting .inEcho) (h : s.nextAnswer = some (.byte b)) :
    step s = ((emit (.byte b) { s.takeInput with run := .running }).andThen fun _ u => putChar b u).outcome := by
  rw [step_waiting hrun, resume, inAfterPrompt, inputRead_byte (s := { s with run := .running }) h, takeInput_setRun]
  rfl

theorem writeAnswer_takeInput (s : State) (r : RunState) (n : Nat) :
    ({ s.takeInput with run := r } : State).writeAnswer n = s.writeAnswer n :=
  writeAnswer_congr (takeInput_writes s) (takeInput_drawn s) n

theorem step_waiting_in_echoed {b : Byte} (hrun : s.run = .waiting .inEcho) (h : s.nextAnswer = some (.byte b))
    (hw : s.writeAnswer 0 = .ok) : ∃ t, step s = .next t ∧ t.run = .running ∧ t.reg 0#3 = zext8 b ∧
      t.cond = flag (zext8 b) ∧ t.output = s.output ++ [.byte b] ∧ TookInput s t ∧ t.pc = s.pc ∧ t.mem = s.mem ∧
      ∀ r, r ≠ 0#3 → t.reg r = s.reg r := by
  rw [step_waiting_in_byte hrun h, emit_ok ((writeAnswer_takeInput s .running 0).trans hw)]
  refine ⟨_, rfl, rfl, reg_setReg_same _ _ _, rfl, ?_, ⟨rfl, rfl⟩, takeInput_pc s, takeInput_mem s, fun r hr => ?_⟩
  · exact congrArg (· ++ [.byte b]) (takeInput_output s)
  · exact ((reg_setReg _ _ _ _).trans (if_neg hr)).trans (reg_eq_of_regs (takeInput_regs s) r)

theorem step_waiting_in_echo_fails {b : Byte} (hrun : s.run = .waiting .inEcho)
    (h : s.nextAnswer = some (.byte b)) (hw : s.writeAnswer 0 = .fail) :
    ∃ t, step s = .next t ∧ t.run = .halted .ioError ∧ (∀ r, t.reg r = s.reg r) ∧ t.cond = s.cond ∧
      t.output = s.output ∧ TookInput s t ∧ t.pc = s.pc ∧ t.mem = s.mem := by
  rw [step_waiting_in_byte hrun h, emit_fail ((writeAnswer_takeInput s .running 0).trans hw)]
  exact ⟨_, rfl, rfl, reg_eq_of_regs (takeInput_regs s), takeInput_cond s, takeInput_output s, ⟨rfl, rfl⟩,
    takeInput_pc s, takeInput_mem s⟩

/-- With no answer pending none is listed, so the host's is the next, and taking it leaves the state as it was. -/
theorem supplyInput_is_next (a : ReadAnswer) (h : s.nextAnswer = none) :
    (s.supplyInput a).nextAnswer = some a ∧ (s.supplyInput a).takeInput = s := by
  have hreads : s.reads = [] := by
    cases hs : s.reads with
    | nil => rfl
    | cons x more => cases h.symm.trans (nextAnswer_cons hs)
  have hlisted : (s.supplyInput a).reads = [a] := by simp [hreads]
  refine ⟨nextAnswer_cons hlisted, ?_⟩
  rw [takeInput_cons hlisted, ← hreads]
  rfl

/-- A string that goes on and is accepted is written to its zero word, in one step. -/
theorem step_writing_string {k : StringService} {a : Word} {ws : List Word} (hrun : s.run = .writing k a)
    (hs : stringAt s.mem a ws) (hw : ∀ i, i < (stringBytes k ws).length → s.writeAnswer i = .ok) :
    ∃ t, step s = .next t ∧ t.run = .running ∧ (∀ r, t.reg r = s.reg r) ∧ t.cond = s.cond ∧
      t.output = s.output ++ (stringBytes k ws).map .byte ∧ KeptInput s t ∧ t.pc = s.pc ∧ t.mem = s.mem := by
  obtain ⟨t, ht, houtput, hrest⟩ := emitAll_ok (s := { s with run := .running }) hw
  have hfuel : ws.length < stringPass := stringAt_length hs
  have hstep : step s = .next t := by
    rw [step_writing hrun, continueString, stringLoop_eq_emitAll (s := { s with run := .running }) hs hfuel, ht]
    rfl
  refine ⟨t, hstep, ?_, reg_eq_of_regs ?_, ?_, houtput, ⟨?_, ?_⟩, ?_, ?_⟩ <;> rw [hrest]

end

/-- Settles O50, clause by clause: the wait, the host's answer, GETC's byte, IN's byte with its echo accepted and
failed, the failing read, and the string. -/
theorem waitingEndsWithTheHostsAnswer : Obligations.WaitingEndsWithTheHostsAnswer := by
  unfold Obligations.WaitingEndsWithTheHostsAnswer
  exact ⟨fun _ _ => step_waiting_none, fun _ => supplyInput_is_next, fun _ _ => step_waiting_getc_byte,
    fun _ _ => step_waiting_in_echoed, fun _ _ => step_waiting_in_echo_fails, fun _ _ => step_waiting_fail,
    fun _ _ _ _ => step_writing_string⟩

end Sys2Proof.Machine

/-! # Memory: writes, reads and polls, and the words an instruction changes -/

namespace Sys2Proof.Machine

/-! ## The words an instruction changes (20_memory.md R51, R53, R55) -/

/-- From `s` to `t` no word changed but the two keyboard words, which a poll writes (20_memory.md R53). -/
def KeepsOtherWords (s t : State) : Prop := ∀ a, a ≠ kbsrAddr → a ≠ kbdrAddr → t.mem.read a = s.mem.read a

theorem KeepsOtherWords.of_mem {s t : State} (h : t.mem = s.mem) : KeepsOtherWords s t := fun a _ _ => by rw [h]

theorem PortFrame.keepsOtherWords {s t : State} (h : PortFrame s t) : KeepsOtherWords s t := h.read

theorem DestEffect.keepsOtherWords {r : Reg} {s t : State} (h : DestEffect r s t) : KeepsOtherWords s t := by
  cases h with
  | written v ports => exact ports.read
  | cutShort ports _ => exact ports.read

/-- No service stores a word: only its polls write memory (43_trap.md R182 to R188). -/
theorem service_keepsOtherWords (vect : BitVec 8) (s : State) : (service vect s).Leaves (KeepsOtherWords s) := by
  unfold service
  split
  · exact (getc_dest s).mono fun _ h => h.keepsOtherWords
  · exact (out_leaves s).mono fun _ h => h.keepsOtherWords
  · exact (puts_leaves s).mono fun _ h => h.keepsOtherWords
  · exact (inService_dest s).mono fun _ h => h.keepsOtherWords
  · exact (putsp_leaves s).mono fun _ h => h.keepsOtherWords
  · exact (halt_leaves s).mono fun _ h => h.keepsOtherWords
  · exact .of_mem rfl

/-- An instruction that is no store changes only the keyboard words. -/
theorem exec_keepsOtherWords {i : Instr} {s t : State} (hi : storedReg i = none) (h : exec i s = .next t) :
    KeepsOtherWords s t := by
  cases i with
  | addReg | addImm | andReg | andImm | not | lea | ld | ldi | ldr =>
    exact ((exec_effect h).destEffect rfl).keepsOtherWords
  | br n z p off9 =>
    cases h
    refine .of_mem ?_
    split <;> rfl
  | jmp | ret | rti | res => cases h; exact .of_mem rfl
  | jsr | jsrr => cases h; exact .of_mem (link_mem s s.pc)
  | trap vect =>
    have served : KeepsOtherWords (s.link s.pc) t := (service_keepsOtherWords vect _).outcome h
    exact fun a hs hd => (served a hs hd).trans (by rw [link_mem])
  | st | sti | str => cases hi

/-- Everything a store can do (41_load_store.md R138, R140, R142): its pointer, if it has one, is read and the register
stored at the address; or the pointer's read raised IoError and there is no address to store to. -/
theorem exec_store_cases {i : Instr} {sr : Reg} {s t : State} (hi : storedReg i = some sr) (h : exec i s = .next t) :
    (∃ ea u, storeAddress i s = some ea ∧ PortFrame s u ∧ u.run = s.run ∧ t = memWrite ea (s.reg sr) u) ∨
    (storeAddress i s = none ∧ PortFrame s t ∧ t.run = .halted .ioError) := by
  cases i with
  | st | str =>
    cases hi
    cases h
    exact .inl ⟨_, s, rfl, .refl s, rfl, rfl⟩
  | sti sr off9 =>
    cases hi
    cases hm : memRead (s.pcRel9 off9) s with
    | done ea u =>
      have pointer := memRead_done_portFrame hm
      refine .inl ⟨ea, u, by simp [storeAddress, hm], pointer, memRead_done_run hm, ?_⟩
      rw [← pointer.reg sr]
      simpa [exec, execSti, hm] using h.symm
    | ended u =>
      obtain rfl : u = t := by simpa [exec, execSti, hm] using h
      exact .inr ⟨by simp [storeAddress, hm], memRead_ended_portFrame hm, (memRead_ended hm).2⟩
  | _ => cases hi

/-- Settles O59, by whether the instruction is a store: if not, it keeps all but the keyboard words; if it is, so does
its pointer's read, and the write changes the word at `storeAddress` only. -/
theorem instructionsChangeOnlyTheStoredWord : Obligations.InstructionsChangeOnlyTheStoredWord := by
  unfold Obligations.InstructionsChangeOnlyTheStoredWord
  intro i s t h a hs hd hstored
  cases hi : storedReg i with
  | none => exact exec_keepsOtherWords hi h a hs hd
  | some sr =>
    rcases exec_store_cases hi h with ⟨ea, u, hea, pointer, -, rfl⟩ | ⟨-, pointer, -⟩
    · have hne : a ≠ ea := by rintro rfl; exact hstored hea
      exact (Memory.read_write_other u.mem _ hne).trans (pointer.read a hs hd)
    · exact pointer.read a hs hd

/-! ## A poll of the keyboard (R52, R53; 92_eei_decisions.md D3, D4, D5) -/

/-- `readyWord` is the parameter's choice of word (D3). -/
theorem readyWord_eq {s : State} {ready : Word} (cleared : s.cfg.kbsrReadyWord = .cleared → ready = 0x8000#16)
    (keepsOld : s.cfg.kbsrReadyWord = .keepsOld → ready = s.mem.read kbsrAddr ||| 0x8000#16) : readyWord s = ready := by
  unfold readyWord
  split
  case h_1 hcfg => exact (cleared hcfg).symm
  case h_2 hcfg => exact (keepsOld hcfg).symm

theorem readyWord_bit15 (s : State) : (readyWord s).getLsbD 15 = true := by
  unfold readyWord
  split <;> simp

theorem readyWord_inputPoll (s : State) : readyWord s.inputPoll.2 = readyWord s := by
  simp only [readyWord, (inputPoll_frame s).cfg, inputPoll_mem]

section

variable {s : State}

theorem memRead_kbsr_notReady (hp : s.inputPoll.1 = false) :
    memRead kbsrAddr s = .done 0#16 (memWrite kbsrAddr 0#16 s.inputPoll.2) := by
  rcases keyboardPoll_cases s with ⟨-, hk⟩ | ⟨b, hready, -⟩ | ⟨hready, -⟩
  · simp [memRead_kbsr, hk]
  all_goals cases hp.symm.trans hready

theorem memRead_kbsr_byte {b : Byte} (hp : s.inputPoll.1 = true) (ha : s.nextAnswer = some (.byte b)) :
    memRead kbsrAddr s = .done (readyWord s)
      (memWrite kbdrAddr (zext8 b) (memWrite kbsrAddr (readyWord s) s.inputPoll.2).takeInput) := by
  rcases keyboardPoll_cases s with ⟨hidle, -⟩ | ⟨b', -, ha', hk⟩ | ⟨-, hfail, -⟩
  · cases hp.symm.trans hidle
  · cases ha.symm.trans ha'
    simp [memRead_kbsr, hk, readyWord_inputPoll, Memory.read_write_other _ _ kbdr_ne_kbsr.symm]
  · cases ha.symm.trans hfail

theorem memRead_kbsr_fail (hp : s.inputPoll.1 = true) (ha : s.nextAnswer = some .fail) :
    memRead kbsrAddr s = .ended
      { (memWrite kbsrAddr (readyWord s) s.inputPoll.2).takeInput with run := .halted .ioError } := by
  rcases keyboardPoll_cases s with ⟨hidle, -⟩ | ⟨b, -, hbyte, -⟩ | ⟨-, -, hk⟩
  · cases hp.symm.trans hidle
  · cases ha.symm.trans hbyte
  · simp [memRead_kbsr, hk, readyWord_inputPoll]

/-- Taking the answer from where none was taken since `s` is taking the next answer of `s`. -/
theorem KeptInput.takeInput {u : State} (h : KeptInput s u) : TookInput s u.takeInput := by
  obtain ⟨hreads, htaken⟩ := h
  unfold TookInput KeptInput State.takeInput
  rw [hreads]
  split <;> simp [htaken]

/-- The status word a poll writes leaves the data word alone. -/
theorem read_kbdr_polled (v : Word) :
    (memWrite kbsrAddr v s.inputPoll.2).mem.read kbdrAddr = s.mem.read kbdrAddr := by
  rw [memWrite_mem, Memory.read_write_other _ _ kbdr_ne_kbsr, inputPoll_mem]

/-- The poll and the status word it writes take no input. -/
theorem keptInput_polled (v : Word) : KeptInput s (memWrite kbsrAddr v s.inputPoll.2) :=
  ⟨inputPoll_reads s, inputPoll_taken s⟩

end

theorem memRead_done_readFrame {a w : Word} {s u : State} (h : memRead a s = .done w u) : ReadFrame s u := by
  simpa only [h, Op.Leaves] using memRead_leaves a s

theorem memRead_ended_readFrame {a : Word} {s t : State} (h : memRead a s = .ended t) : ReadFrame s t := by
  simpa only [h, Op.Leaves] using memRead_leaves a s

/-- Settles O25: `memRead_kbsr_notReady`, `memRead_kbsr_byte` and `memRead_kbsr_fail` name the state each poll leaves,
and its words and input are read off it. -/
theorem keyboardStatusReadPolls : Obligations.KeyboardStatusReadPolls := by
  unfold Obligations.KeyboardStatusReadPolls
  refine ⟨fun a s ha => memRead_plain ha s, fun s ready cleared keepsOld => ?_⟩
  obtain rfl := readyWord_eq cleared keepsOld
  refine ⟨readyWord_bit15 s, fun hp => ?notReady, fun b hp ha => ?byte, fun hp ha => ?fails⟩
  case notReady =>
    have hm := memRead_kbsr_notReady hp
    exact ⟨_, hm, memRead_done_readFrame hm, memRead_done_run hm, (memRead_done_value hm).symm, read_kbdr_polled 0#16,
      keptInput_polled 0#16⟩
  case byte =>
    have hm := memRead_kbsr_byte hp ha
    exact ⟨_, hm, memRead_done_readFrame hm, memRead_done_run hm, (memRead_done_value hm).symm,
      Memory.read_write_same _ _ _, (keptInput_polled _).takeInput⟩
  case fails =>
    have hm := memRead_kbsr_fail hp ha
    refine ⟨_, hm, memRead_ended_readFrame hm, rfl, ?_, ?_, (keptInput_polled (readyWord s)).takeInput⟩
    · exact (congrArg (Memory.read · kbsrAddr) (takeInput_mem _)).trans (Memory.read_write_same _ _ _)
    · exact (congrArg (Memory.read · kbdrAddr) (takeInput_mem _)).trans (read_kbdr_polled (readyWord s))

/-! ## A store is what the next fetch reads (R65) -/

/-- Settles O35: a store to PC leaves the word at PC, and PC and the run state as they were (`exec_store_cases`); PC is
not 0xFE00, so the fetch is pure. -/
theorem storeIsSeenByTheNextFetch : Obligations.StoreIsSeenByTheNextFetch := by
  unfold Obligations.StoreIsSeenByTheNextFetch
  intro i sr s t hi haddress hrun hcfg hpc h
  rcases exec_store_cases hi h with ⟨ea, u, hea, pointer, hu, rfl⟩ | ⟨hnone, -, -⟩
  · cases haddress.symm.trans hea
    have fetched : memRead u.pc (memWrite s.pc (s.reg sr) u) = .done (s.reg sr) (memWrite s.pc (s.reg sr) u) := by
      rw [pointer.pc, memRead_plain hpc, memWrite_mem, Memory.read_write_same]
    have next := fetchThenIncrementThenExecute (memWrite s.pc (s.reg sr) u) _ _ (hu.trans hrun)
      ((congrArg Config.canonicalOnly pointer.cfg).trans hcfg) fetched
    rwa [memWrite_pc, pointer.pc] at next
  · cases haddress.symm.trans hnone

/-! ## Every address (R55, R56; 41_load_store.md R131) -/

/-- Settles O23: read after write, and a write's frame. -/
theorem memoryWriteStoresUnconditionally : Obligations.MemoryWriteStoresUnconditionally := by
  unfold Obligations.MemoryWriteStoresUnconditionally
  exact fun a v s => ⟨Memory.read_write_same s.mem a v, onlyWord_memWrite a v s⟩

/-- An address plus an extended field is their exact signed sum modulo 2^16 (R131). -/
theorem toNat_add_sext {n : Nat} (a : Word) (f : BitVec n) :
    ((a + sext f).toNat : Int) = (a.toNat + f.toInt) % 65536 := by
  have hsum : a + sext f = BitVec.ofInt 16 (a.toNat + f.toInt) := by
    rw [BitVec.ofInt_add, BitVec.ofInt_natCast, BitVec.ofNat_toNat, BitVec.setWidth_eq]
    rfl
  rw [hsum, BitVec.toNat_ofInt, Int.toNat_of_nonneg (Int.emod_nonneg _ (by decide))]
  rfl

/-- Settles O24: a read that gives no word is IoError at 0xFE00 (`memRead_ended`), and the three address forms are sums
with an extended field. -/
theorem everyAddressIsReadable : Obligations.EveryAddressIsReadable := by
  unfold Obligations.EveryAddressIsReadable
  refine ⟨fun a s => ?_, fun s off9 => toNat_add_sext s.pc off9, fun s off11 => toNat_add_sext s.pc off11,
    fun s b off6 => toNat_add_sext (s.reg b) off6⟩
  cases hm : memRead a s with
  | done v t => exact .inl ⟨v, t, rfl⟩
  | ended t =>
    obtain ⟨ha, hrun⟩ := memRead_ended hm
    exact .inr ⟨ha, t, rfl, hrun⟩

end Sys2Proof.Machine

/-! # Encoding: the decoder's cases, the opcode map, ignored bits and the round trips -/

namespace Sys2Proof

/-! ## The decoder by its rows (30_encoding.md R91) -/

/-- `w` decodes to the instruction of one row of R91: the opcode and the mode that lead to the row, and the fields the
instruction reads. -/
inductive DecodesTo (w : Word) : Instr → Prop where
  | addReg (op : opcodeField w = 0x1#4) (mode : immMode w = false) :
      DecodesTo w (.addReg (drField w) (baseField w) (sr2Field w))
  | addImm (op : opcodeField w = 0x1#4) (mode : immMode w = true) :
      DecodesTo w (.addImm (drField w) (baseField w) (imm5Field w))
  | andReg (op : opcodeField w = 0x5#4) (mode : immMode w = false) :
      DecodesTo w (.andReg (drField w) (baseField w) (sr2Field w))
  | andImm (op : opcodeField w = 0x5#4) (mode : immMode w = true) :
      DecodesTo w (.andImm (drField w) (baseField w) (imm5Field w))
  | not (op : opcodeField w = 0x9#4) : DecodesTo w (.not (drField w) (baseField w))
  | ld (op : opcodeField w = 0x2#4) : DecodesTo w (.ld (drField w) (off9Field w))
  | ldi (op : opcodeField w = 0xA#4) : DecodesTo w (.ldi (drField w) (off9Field w))
  | ldr (op : opcodeField w = 0x6#4) : DecodesTo w (.ldr (drField w) (baseField w) (off6Field w))
  | lea (op : opcodeField w = 0xE#4) : DecodesTo w (.lea (drField w) (off9Field w))
  | st (op : opcodeField w = 0x3#4) : DecodesTo w (.st (drField w) (off9Field w))
  | sti (op : opcodeField w = 0xB#4) : DecodesTo w (.sti (drField w) (off9Field w))
  | str (op : opcodeField w = 0x7#4) : DecodesTo w (.str (drField w) (baseField w) (off6Field w))
  | br (op : opcodeField w = 0x0#4) :
      DecodesTo w (.br (w.getLsbD 11) (w.getLsbD 10) (w.getLsbD 9) (off9Field w))
  | jmp (op : opcodeField w = 0xC#4) (base : baseField w ≠ 7#3) : DecodesTo w (.jmp (baseField w))
  | ret (op : opcodeField w = 0xC#4) (base : baseField w = 7#3) : DecodesTo w .ret
  | jsr (op : opcodeField w = 0x4#4) (mode : jsrMode w = true) : DecodesTo w (.jsr (off11Field w))
  | jsrr (op : opcodeField w = 0x4#4) (mode : jsrMode w = false) : DecodesTo w (.jsrr (baseField w))
  | trap (op : opcodeField w = 0xF#4) : DecodesTo w (.trap (vectField w))
  | rti (op : opcodeField w = 0x8#4) : DecodesTo w .rti
  | res (op : opcodeField w = 0xD#4) : DecodesTo w .res

theorem DecodesTo.decode_eq {w : Word} {i : Instr} (h : DecodesTo w i) : decode w = i := by
  cases h with
  | addReg op mode | addImm op mode | andReg op mode | andImm op mode | jsr op mode | jsrr op mode =>
    simp [decode, op, mode]
  | jmp op base | ret op base => simp [decode, op, base]
  | not op | ld op | ldi op | ldr op | lea op | st op | sti op | str op | br op | trap op | rti op | res op =>
    simp [decode, op]

/-- The cases of the decoder: every word takes one of the rows. -/
theorem decodesTo_decode (w : Word) : DecodesTo w (decode w) := by
  have opIs {n : Nat} (h : (opcodeField w).toNat = n) (hn : n < 16 := by decide) : opcodeField w = BitVec.ofNat 4 n :=
    BitVec.eq_of_toNat_eq (by simp [h, Nat.mod_eq_of_lt hn])
  unfold decode
  split
  case h_1 h => exact .br (opIs h)
  case h_2 h =>
    split
    · exact .addImm (opIs h) ‹_›
    · exact .addReg (opIs h) (Bool.eq_false_of_not_eq_true ‹_›)
  case h_3 h => exact .ld (opIs h)
  case h_4 h => exact .st (opIs h)
  case h_5 h =>
    split
    · exact .jsr (opIs h) ‹_›
    · exact .jsrr (opIs h) (Bool.eq_false_of_not_eq_true ‹_›)
  case h_6 h =>
    split
    · exact .andImm (opIs h) ‹_›
    · exact .andReg (opIs h) (Bool.eq_false_of_not_eq_true ‹_›)
  case h_7 h => exact .ldr (opIs h)
  case h_8 h => exact .str (opIs h)
  case h_9 h => exact .rti (opIs h)
  case h_10 h => exact .not (opIs h)
  case h_11 h => exact .ldi (opIs h)
  case h_12 h => exact .sti (opIs h)
  case h_13 h =>
    split
    · exact .ret (opIs h) ‹_›
    · exact .jmp (opIs h) ‹_›
  case h_14 h => exact .res (opIs h)
  case h_15 h => exact .lea (opIs h)
  case h_16 =>
    have lt := (opcodeField w).isLt
    exact .trap (opIs (n := 0xF) (by simp only [imp_false] at *; omega))

/-! ## Decoding an encoded instruction -/

/-- JMP through R7 is the one term that is not the decoding of its own word (log 2). -/
theorem decode_encode {i : Instr} (h : i.wellFormed = true) : decode (encode i) = i := by
  cases i with
  | addReg | addImm | andReg | andImm | not | ldr | str | jsrr => simp [decode, encode]
  | ld | ldi | lea | st | sti => simp [decode, encode]
  | jsr | trap => simp [decode, encode]
  | br n z p off9 =>
    have bits : ∀ n z p : Bool, (BitVec.ofBool n ++ BitVec.ofBool z ++ BitVec.ofBool p).getLsbD 2 = n ∧
        (BitVec.ofBool n ++ BitVec.ofBool z ++ BitVec.ofBool p).getLsbD 1 = z ∧
        (BitVec.ofBool n ++ BitVec.ofBool z ++ BitVec.ofBool p).getLsbD 0 = p := by decide
    obtain ⟨hn, hz, hp⟩ := bits n z p
    have decoded := (DecodesTo.br (w := encode (.br n z p off9)) (opcodeField_pc9 _ _ _)).decode_eq
    rw [decoded, encode, bit_pc9 _ _ _ (by decide) (by decide), bit_pc9 _ _ _ (by decide) (by decide),
      bit_pc9 _ _ _ (by decide) (by decide), off9Field_pc9, hn, hz, hp]
  | jmp baser =>
    have base : baser ≠ 7#3 := bne_iff_ne.mp h
    simp [decode, encode, base]
  | ret | rti | res => decide

/-! ## A word is made of its fields (R82) -/

section

variable (w : Word)

theorem ofBool_getLsbD (k : Nat) : BitVec.ofBool (w.getLsbD k) = w.extractLsb' k 1 := by
  ext i hi
  simp [Nat.lt_one_iff.mp hi]

/-- Bits `k + l` and up over the `l` bits from `k` are the bits from `k` on. -/
theorem extract_join (k l m : Nat) : w.extractLsb' k (m + l) = w.extractLsb' (k + l) m ++ w.extractLsb' k l :=
  (BitVec.extractLsb'_append_extractLsb'_eq_extractLsb' rfl).symm

theorem pc9_fields : formatPc9 (opcodeField w) (drField w) (off9Field w) = w := by
  have high : opcodeField w ++ drField w = w.extractLsb' 9 7 := (extract_join w 9 3 4).symm
  rw [formatPc9, high]
  exact (extract_join w 0 9 7).symm.trans BitVec.extractLsb'_eq_self

theorem low12_fields : formatLow12 (opcodeField w) (w.extractLsb' 0 12) = w :=
  (extract_join w 0 12 4).symm.trans BitVec.extractLsb'_eq_self

/-- The tail of ADD and AND is the mode bit over imm5. -/
theorem off6Field_eq_mode_imm5 : off6Field w = BitVec.ofBool (immMode w) ++ imm5Field w := by
  rw [immMode, ofBool_getLsbD]
  exact extract_join w 0 5 1

/-- In register mode the tail of ADD and AND is the mode bit and the two ignored bits over SR2. -/
theorem off6Field_eq_mode_sr2 :
    off6Field w = BitVec.ofBool (immMode w) ++ w.extractLsb' 3 2 ++ sr2Field w := by
  have high : BitVec.ofBool (immMode w) ++ w.extractLsb' 3 2 = w.extractLsb' 3 3 := by
    rw [immMode, ofBool_getLsbD]
    exact (extract_join w 3 2 1).symm
  rw [high]
  exact extract_join w 0 3 3

/-- The first register field of JSR and JSRR is the mode bit over the two bits JSRR ignores. -/
theorem drField_eq_mode : drField w = BitVec.ofBool (jsrMode w) ++ w.extractLsb' 9 2 := by
  rw [jsrMode, ofBool_getLsbD]
  exact extract_join w 9 2 1

/-- The first register field of BR is `n`, `z`, `p`. -/
theorem drField_eq_nzp :
    drField w = BitVec.ofBool (w.getLsbD 11) ++ BitVec.ofBool (w.getLsbD 10) ++ BitVec.ofBool (w.getLsbD 9) := by
  have high : BitVec.ofBool (w.getLsbD 11) ++ BitVec.ofBool (w.getLsbD 10) = w.extractLsb' 10 2 := by
    rw [ofBool_getLsbD, ofBool_getLsbD]
    exact (extract_join w 10 1 1).symm
  rw [high, ofBool_getLsbD]
  exact extract_join w 9 1 2

theorem low12_eq_mode_off11 : w.extractLsb' 0 12 = BitVec.ofBool (jsrMode w) ++ off11Field w := by
  rw [jsrMode, ofBool_getLsbD]
  exact extract_join w 0 11 1

theorem low12_eq_vect : w.extractLsb' 0 12 = w.extractLsb' 8 4 ++ vectField w := extract_join w 0 8 4

end

/-! ## Words that are the encoder's (R88) -/

/-- A word whose ignored bits are canonical is put together again from its opcode and the fields its instruction
reads. -/
theorem DecodesTo.encode_eq {w : Word} {i : Instr} (h : DecodesTo w i) (hc : canonical w = true) : encode i = w := by
  cases h with
  | addReg op mode | andReg op mode =>
    have ignored : w.extractLsb' 3 2 = 0#2 := by simpa [canonical, op, mode] using hc
    have fields := base6_fields w
    rwa [op, off6Field_eq_mode_sr2, mode, ignored] at fields
  | addImm op mode | andImm op mode =>
    have fields := base6_fields w
    rwa [op, off6Field_eq_mode_imm5, mode] at fields
  | not op =>
    have ignored : off6Field w = 0x3F#6 := by simpa [canonical, off6Field, op] using hc
    have fields := base6_fields w
    rwa [op, ignored] at fields
  | ldr op | str op =>
    have fields := base6_fields w
    rwa [op] at fields
  | ld op | ldi op | lea op | st op | sti op =>
    have fields := pc9_fields w
    rwa [op] at fields
  | br op =>
    have fields := pc9_fields w
    rwa [op, drField_eq_nzp] at fields
  | jmp op =>
    obtain ⟨high, low⟩ : drField w = 0#3 ∧ off6Field w = 0#6 := by
      simpa [canonical, drField, off6Field, op] using hc
    have fields := base6_fields w
    rwa [op, high, low] at fields
  | ret op base =>
    obtain ⟨high, low⟩ : drField w = 0#3 ∧ off6Field w = 0#6 := by
      simpa [canonical, drField, off6Field, op] using hc
    have fields := base6_fields w
    rwa [op, high, base, low] at fields
  | jsr op mode =>
    have fields := low12_fields w
    rwa [op, low12_eq_mode_off11, mode] at fields
  | jsrr op mode =>
    obtain ⟨high, low⟩ : w.extractLsb' 9 2 = 0#2 ∧ off6Field w = 0#6 := by
      simpa [canonical, off6Field, op, mode] using hc
    have fields := base6_fields w
    rwa [op, drField_eq_mode, mode, high, low] at fields
  | trap op =>
    have ignored : w.extractLsb' 8 4 = 0#4 := by simpa [canonical, op] using hc
    have fields := low12_fields w
    rwa [op, low12_eq_vect, ignored] at fields
  | rti op | res op =>
    have ignored : w.extractLsb' 0 12 = 0#12 := by simpa [canonical, op] using hc
    have fields := low12_fields w
    rwa [op, ignored] at fields

/-- The encoder writes every ignored bit at its canonical value. -/
theorem canonical_encode (i : Instr) : canonical (encode i) = true :=
  match i with
  | .addReg dr sr1 sr2 => Laws.Canonical.addReg dr sr1 sr2
  | .addImm dr sr1 imm5 => Laws.Canonical.addImm dr sr1 imm5
  | .andReg dr sr1 sr2 => Laws.Canonical.andReg dr sr1 sr2
  | .andImm dr sr1 imm5 => Laws.Canonical.andImm dr sr1 imm5
  | .not dr sr => Laws.Canonical.not dr sr
  | .ld dr off9 => Laws.Canonical.ld dr off9
  | .ldi dr off9 => Laws.Canonical.ldi dr off9
  | .ldr dr baser off6 => Laws.Canonical.ldr dr baser off6
  | .lea dr off9 => Laws.Canonical.lea dr off9
  | .st sr off9 => Laws.Canonical.st sr off9
  | .sti sr off9 => Laws.Canonical.sti sr off9
  | .str sr baser off6 => Laws.Canonical.str sr baser off6
  | .br n z p off9 => Laws.Canonical.br n z p off9
  | .jmp baser => Laws.Canonical.jmp baser
  | .ret => Laws.Canonical.ret
  | .jsr off11 => Laws.Canonical.jsr off11
  | .jsrr baser => Laws.Canonical.jsrr baser
  | .trap vect => Laws.Canonical.trap vect
  | .rti => Laws.Canonical.rti
  | .res => Laws.Canonical.res

/-! ## Ignored bits (R88) -/

section

variable (w x : Word) {m : Word}

/-- A range of bits that a change leaves out is kept. -/
theorem extract_flip {k l : Nat} (h : m.extractLsb' k l = 0#l) :
    (w ^^^ (x &&& m)).extractLsb' k l = w.extractLsb' k l := by
  rw [BitVec.extractLsb'_xor, BitVec.extractLsb'_and, h]
  simp

theorem opcodeField_flip (h : opcodeField m = 0#4) : opcodeField (w ^^^ (x &&& m)) = opcodeField w :=
  extract_flip w x h

theorem drField_flip (h : drField m = 0#3) : drField (w ^^^ (x &&& m)) = drField w := extract_flip w x h

theorem baseField_flip (h : baseField m = 0#3) : baseField (w ^^^ (x &&& m)) = baseField w := extract_flip w x h

theorem sr2Field_flip (h : sr2Field m = 0#3) : sr2Field (w ^^^ (x &&& m)) = sr2Field w := extract_flip w x h

theorem vectField_flip (h : vectField m = 0#8) : vectField (w ^^^ (x &&& m)) = vectField w := extract_flip w x h

theorem immMode_flip (h : immMode m = false) : immMode (w ^^^ (x &&& m)) = immMode w := by
  unfold immMode at h ⊢
  rw [BitVec.getLsbD_xor, BitVec.getLsbD_and, h]
  simp

theorem jsrMode_flip (h : jsrMode m = false) : jsrMode (w ^^^ (x &&& m)) = jsrMode w := by
  unfold jsrMode at h ⊢
  rw [BitVec.getLsbD_xor, BitVec.getLsbD_and, h]
  simp

end

/-- The bits an instruction ignores are none of the opcode, the mode and the fields it reads. -/
theorem DecodesTo.decode_flip {w : Word} {i : Instr} (h : DecodesTo w i) (x : Word) :
    decode (w ^^^ (x &&& i.ignored)) = i := by
  have decoded := h.decode_eq
  cases h with
  | addReg op mode | andReg op mode =>
    simp (disch := decide) [decode, Instr.ignored, opcodeField_flip, drField_flip, baseField_flip, sr2Field_flip,
      immMode_flip, op, mode]
  | not op =>
    simp (disch := decide) [decode, Instr.ignored, opcodeField_flip, drField_flip, baseField_flip, op]
  | jmp op base | ret op base =>
    simp (disch := decide) [decode, Instr.ignored, opcodeField_flip, baseField_flip, op, base]
  | jsrr op mode =>
    simp (disch := decide) [decode, Instr.ignored, opcodeField_flip, baseField_flip, jsrMode_flip, op, mode]
  | trap op =>
    simp (disch := decide) [decode, Instr.ignored, opcodeField_flip, vectField_flip, op]
  | rti op | res op => simp (disch := decide) [decode, Instr.ignored, opcodeField_flip, op]
  | addImm | andImm | ld | ldi | ldr | lea | st | sti | str | br | jsr => simpa [Instr.ignored] using decoded

theorem DecodesTo.wellFormed {w : Word} {i : Instr} (h : DecodesTo w i) : i.wellFormed = true := by
  cases h with
  | jmp _ base => exact bne_iff_ne.mpr base
  | _ => rfl

/-! ## The opcode map (R90) -/

section

variable {w : Word} {op : BitVec 4}

/-- A mask keeps, field by field, what it keeps of the fields. -/
theorem and_base6 (w : Word) (a : BitVec 4) (b c : BitVec 3) (d : BitVec 6) : w &&& formatBase6 a b c d =
    formatBase6 (opcodeField w &&& a) (drField w &&& b) (baseField w &&& c) (off6Field w &&& d) := by
  rw [← base6_and, base6_fields]

/-- The rows told apart by the opcode alone. -/
theorem opcode_row : w &&& 0xF000#16 = formatBase6 op 0#3 0#3 0#6 ↔ opcodeField w = op := by
  have mask : w &&& 0xF000#16 = _ := and_base6 w (.allOnes 4) 0#3 0#3 0#6
  rw [mask, base6_inj, BitVec.and_allOnes]
  simp

/-- The row of RET. -/
theorem opcode_base_row {base : Reg} :
    w &&& 0xF1C0#16 = formatBase6 op 0#3 base 0#6 ↔ opcodeField w = op ∧ baseField w = base := by
  have mask : w &&& 0xF1C0#16 = _ := and_base6 w (.allOnes 4) 0#3 (.allOnes 3) 0#6
  rw [mask, base6_inj, BitVec.and_allOnes, BitVec.and_allOnes]
  simp

/-- The rows of ADD and AND. -/
theorem opcode_immMode_row (mode : Bool) :
    w &&& 0xF020#16 = formatBase6 op 0#3 0#3 (bif mode then 0x20#6 else 0#6) ↔
    opcodeField w = op ∧ immMode w = mode := by
  have mask : w &&& 0xF020#16 = _ := and_base6 w (.allOnes 4) 0#3 0#3 0x20#6
  have tail : ∀ (t : BitVec 6) (mode : Bool), t &&& 0x20#6 = (bif mode then 0x20#6 else 0#6) ↔ t[5] = mode := by
    decide
  have bit : immMode w = (off6Field w)[5] := by simp [immMode, off6Field]
  rw [mask, base6_inj, BitVec.and_allOnes, tail, bit]
  simp

/-- The rows of JSR and JSRR. -/
theorem opcode_jsrMode_row (mode : Bool) : w &&& 0xF800#16 = formatBase6 op (bif mode then 4#3 else 0#3) 0#3 0#6 ↔
    opcodeField w = op ∧ jsrMode w = mode := by
  have mask : w &&& 0xF800#16 = _ := and_base6 w (.allOnes 4) 4#3 0#3 0#6
  have head : ∀ (r : BitVec 3) (mode : Bool), r &&& 4#3 = (bif mode then 4#3 else 0#3) ↔ r[2] = mode := by decide
  have bit : jsrMode w = (drField w)[2] := by simp [jsrMode, drField]
  rw [mask, base6_inj, BitVec.and_allOnes, head, bit]
  simp

end

/-- A word matches its instruction's row. -/
theorem DecodesTo.matches_row {w : Word} {i : Instr} (h : DecodesTo w i) : w &&& i.mask = i.pattern := by
  cases h with
  | addReg op mode | andReg op mode => exact (opcode_immMode_row false).mpr ⟨op, mode⟩
  | addImm op mode | andImm op mode => exact (opcode_immMode_row true).mpr ⟨op, mode⟩
  | jsr op mode => exact (opcode_jsrMode_row true).mpr ⟨op, mode⟩
  | jsrr op mode => exact (opcode_jsrMode_row false).mpr ⟨op, mode⟩
  | ret op base => exact opcode_base_row.mpr ⟨op, base⟩
  | jmp op | not op | ld op | ldi op | ldr op | lea op | st op | sti op | str op | br op | trap op | rti op | res op =>
    exact opcode_row.mpr op

/-- A word that matches a row decodes to an instruction of that row, or to RET where the row is JMP's. -/
theorem decodesTo_of_matches_row {w : Word} {i : Instr} (h : w &&& i.mask = i.pattern) :
    (∃ j, DecodesTo w j ∧ i.mask = j.mask ∧ i.pattern = j.pattern) ∨ DecodesTo w .ret ∧ ∃ b, i = .jmp b := by
  cases i with
  | addReg =>
    obtain ⟨op, mode⟩ := (opcode_immMode_row (op := 0x1#4) false).mp h
    exact .inl ⟨_, .addReg op mode, rfl, rfl⟩
  | addImm =>
    obtain ⟨op, mode⟩ := (opcode_immMode_row (op := 0x1#4) true).mp h
    exact .inl ⟨_, .addImm op mode, rfl, rfl⟩
  | andReg =>
    obtain ⟨op, mode⟩ := (opcode_immMode_row (op := 0x5#4) false).mp h
    exact .inl ⟨_, .andReg op mode, rfl, rfl⟩
  | andImm =>
    obtain ⟨op, mode⟩ := (opcode_immMode_row (op := 0x5#4) true).mp h
    exact .inl ⟨_, .andImm op mode, rfl, rfl⟩
  | jsr =>
    obtain ⟨op, mode⟩ := (opcode_jsrMode_row (op := 0x4#4) true).mp h
    exact .inl ⟨_, .jsr op mode, rfl, rfl⟩
  | jsrr =>
    obtain ⟨op, mode⟩ := (opcode_jsrMode_row (op := 0x4#4) false).mp h
    exact .inl ⟨_, .jsrr op mode, rfl, rfl⟩
  | ret =>
    obtain ⟨op, base⟩ := (opcode_base_row (op := 0xC#4) (base := 7#3)).mp h
    exact .inl ⟨_, .ret op base, rfl, rfl⟩
  | jmp b =>
    have op : opcodeField w = 0xC#4 := opcode_row.mp h
    by_cases base : baseField w = 7#3
    · exact .inr ⟨.ret op base, b, rfl⟩
    · exact .inl ⟨_, .jmp op base, rfl, rfl⟩
  | not => exact .inl ⟨_, .not (opcode_row.mp h), rfl, rfl⟩
  | ld => exact .inl ⟨_, .ld (opcode_row.mp h), rfl, rfl⟩
  | ldi => exact .inl ⟨_, .ldi (opcode_row.mp h), rfl, rfl⟩
  | ldr => exact .inl ⟨_, .ldr (opcode_row.mp h), rfl, rfl⟩
  | lea => exact .inl ⟨_, .lea (opcode_row.mp h), rfl, rfl⟩
  | st => exact .inl ⟨_, .st (opcode_row.mp h), rfl, rfl⟩
  | sti => exact .inl ⟨_, .sti (opcode_row.mp h), rfl, rfl⟩
  | str => exact .inl ⟨_, .str (opcode_row.mp h), rfl, rfl⟩
  | br => exact .inl ⟨_, .br (opcode_row.mp h), rfl, rfl⟩
  | trap => exact .inl ⟨_, .trap (opcode_row.mp h), rfl, rfl⟩
  | rti => exact .inl ⟨_, .rti (opcode_row.mp h), rfl, rfl⟩
  | res => exact .inl ⟨_, .res (opcode_row.mp h), rfl, rfl⟩

end Sys2Proof

namespace Sys2Proof.Machine

/-- Settles O11, by the fields the decoder reads back from each format of R82. -/
theorem decodeInvertsEncode : Obligations.DecodeInvertsEncode := by
  unfold Obligations.DecodeInvertsEncode
  exact fun _ h => decode_encode h

/-- Settles O12: a canonical word is made of its opcode and the fields its instruction reads, and every word the encoder
writes is canonical. -/
theorem encodeInvertsDecodeOnCanonicalWords : Obligations.EncodeInvertsDecodeOnCanonicalWords := by
  unfold Obligations.EncodeInvertsDecodeOnCanonicalWords
  exact fun w => ⟨(decodesTo_decode w).encode_eq, fun h => h ▸ canonical_encode (decode w)⟩

/-- Settles O13, by the rows of the decoder: a row's mask reads the opcode and the mode that lead to it. -/
theorem opcodeMapRowsAreDisjointAndCover : Obligations.OpcodeMapRowsAreDisjointAndCover := by
  unfold Obligations.OpcodeMapRowsAreDisjointAndCover
  refine ⟨fun w => (decodesTo_decode w).matches_row, fun w i h => ?_⟩
  rcases decodesTo_of_matches_row h with ⟨j, hj, same⟩ | ⟨hret, b, rfl⟩
  · rw [hj.decode_eq]
    exact .inl same
  · exact .inr ⟨hret.decode_eq, rfl, rfl⟩

/-- Settles O14, by the rows of the decoder: none reads a bit its instruction ignores, and JMP's is left for RET's when
the base register is R7. -/
theorem ignoredBitsHaveNoEffect : Obligations.IgnoredBitsHaveNoEffect := by
  unfold Obligations.IgnoredBitsHaveNoEffect
  exact ⟨fun w x => (decodesTo_decode w).decode_flip x, fun w => (decodesTo_decode w).wellFormed⟩

/-- With `CANONICAL_ONLY` true a fetched word is executed if it is canonical and refused if not (30_encoding.md R88). -/
theorem step_of_memRead_done_canonicalOnly {s u : State} {w : Word} (hrun : s.run = .running)
    (hcfg : u.cfg.canonicalOnly = true) (hm : memRead s.pc s = .done w u) :
    step s = if canonical w then exec (decode w) u.advance else .refused (.nonCanonical w) := by
  have hf : fetch s = .done w u.advance := by simp [fetch, hm]
  cases hc : canonical w <;> simp [step, hrun, hf, decodeWith, hcfg, hc]

/-- Settles O9: the read at PC leaves the parameters and PC, so CANONICAL_ONLY still decides, and what runs runs at
PC + 1. -/
theorem canonicalOnlyRefusesNonCanonicalWords : Obligations.CanonicalOnlyRefusesNonCanonicalWords := by
  unfold Obligations.CanonicalOnlyRefusesNonCanonicalWords
  intro s u w hrun hcfg hm
  have read := memRead_done_portFrame hm
  have hadvance : u.advance = { u with pc := s.pc + 1#16 } := by rw [State.advance, State.setPc, read.pc]
  rw [← hadvance]
  exact step_of_memRead_done_canonicalOnly hrun (read.cfg ▸ hcfg) hm

/-- Settles O10: the decoder evaluated on each word. -/
theorem sampleWordsDecode : Obligations.SampleWordsDecode := by
  unfold Obligations.SampleWordsDecode
  decide

end Sys2Proof.Machine

/-! # Operate: ADD, AND and NOT -/

namespace Sys2Proof.Machine

/-! ## The flag-path write of a result (40_operate.md R110 to R116)

Each operate instruction is one flag-path write of its result, so its statement is `writesResult_of_exec` at the
equation of its arm. -/

theorem exec_addReg (dr sr1 sr2 : Reg) (s : State) :
    exec (.addReg dr sr1 sr2) s = .next (s.setReg dr (s.reg sr1 + s.reg sr2)) := rfl

theorem exec_addImm (dr sr1 : Reg) (imm5 : BitVec 5) (s : State) :
    exec (.addImm dr sr1 imm5) s = .next (s.setReg dr (s.reg sr1 + imm5.signExtend 16)) := rfl

theorem exec_andReg (dr sr1 sr2 : Reg) (s : State) :
    exec (.andReg dr sr1 sr2) s = .next (s.setReg dr (s.reg sr1 &&& s.reg sr2)) := rfl

theorem exec_andImm (dr sr1 : Reg) (imm5 : BitVec 5) (s : State) :
    exec (.andImm dr sr1 imm5) s = .next (s.setReg dr (s.reg sr1 &&& imm5.signExtend 16)) := rfl

theorem exec_not (dr sr : Reg) (s : State) : exec (.not dr sr) s = .next (s.setReg dr (~~~ s.reg sr)) := rfl

/-- An instruction that is a flag-path write of `v` to `dr` leaves `v` there and its flag in COND, and changes nothing
else (10_state.md R23). -/
theorem writesResult_of_exec {i : Instr} {dr : Reg} {v : Word} {s : State} (h : exec i s = .next (s.setReg dr v)) :
    ∃ t, exec i s = .next t ∧ t.reg dr = v ∧ t.cond = flag v ∧ OnlyReg dr s t :=
  ⟨s.setReg dr v, h, reg_setReg_same s dr v, setReg_cond s dr v, onlyReg_setReg dr v s⟩

/-- Settles O17: the register form of ADD writes the sum. -/
theorem addRegisterResult : Obligations.AddRegisterResult := by
  unfold Obligations.AddRegisterResult
  exact fun dr sr1 sr2 s => writesResult_of_exec (exec_addReg dr sr1 sr2 s)

/-- Settles O18: the immediate form of ADD writes the sum with the extended immediate. -/
theorem addImmediateResult : Obligations.AddImmediateResult := by
  unfold Obligations.AddImmediateResult
  exact fun dr sr1 imm5 s => writesResult_of_exec (exec_addImm dr sr1 imm5 s)

/-- Settles O19: the register form of AND writes the bitwise AND. -/
theorem andRegisterResult : Obligations.AndRegisterResult := by
  unfold Obligations.AndRegisterResult
  exact fun dr sr1 sr2 s => writesResult_of_exec (exec_andReg dr sr1 sr2 s)

/-- Settles O20: the immediate form of AND writes the bitwise AND with the extended immediate. -/
theorem andImmediateResult : Obligations.AndImmediateResult := by
  unfold Obligations.AndImmediateResult
  exact fun dr sr1 imm5 s => writesResult_of_exec (exec_andImm dr sr1 imm5 s)

/-- Settles O21: NOT writes the complement. -/
theorem notResult : Obligations.NotResult := by
  unfold Obligations.NotResult
  exact fun dr sr s => writesResult_of_exec (exec_not dr sr s)

/-! ## The arithmetic laws (R112, R115) -/

/-- The flag reads the sign of the written word: bit 15 is set exactly when the signed reading is negative (R14). -/
theorem flag_eq_sign (v : Word) : flag v = if v = 0#16 then 2#16 else if v.toInt < 0 then 4#16 else 1#16 := by
  simp only [flag, BitVec.msb_eq_toInt, decide_eq_true_eq]
  rfl

/-- A sign-extended immediate has the immediate's signed reading, so the sum is the signed sum reduced to 16 bits. -/
theorem toInt_add_signExtend (a : Word) (imm5 : BitVec 5) :
    (a + imm5.signExtend 16).toInt = (a.toInt + imm5.toInt).bmod 65536 := by
  have himm : (imm5.signExtend 16).toInt = imm5.toInt := BitVec.toInt_signExtend_of_le (by decide)
  exact (BitVec.toInt_add a _).trans (by rw [himm])

/-- Settles O22: the results are those of O17, O18 and O19, read as numbers and bit by bit, and COND is the result's
flag. -/
theorem addAndAndLaws : Obligations.AddAndAndLaws := by
  unfold Obligations.AddAndAndLaws
  refine ⟨fun dr sr1 sr2 s => ?addReg, fun dr sr1 imm5 s => ?addImm, fun dr sr1 sr2 s => ?andReg⟩
  case addReg =>
    obtain ⟨t, hexec, hreg, hcond, frame⟩ := addRegisterResult dr sr1 sr2 s
    rw [← hreg, flag_eq_sign] at hcond
    refine ⟨t, hexec, ?unsigned, ?signed, hcond, frame⟩
    case unsigned => exact hreg ▸ BitVec.toNat_add (s.reg sr1) (s.reg sr2)
    case signed => exact hreg ▸ BitVec.toInt_add (s.reg sr1) (s.reg sr2)
  case addImm =>
    obtain ⟨t, hexec, hreg, hcond, frame⟩ := addImmediateResult dr sr1 imm5 s
    rw [← hreg, flag_eq_sign] at hcond
    exact ⟨t, hexec, hreg ▸ toInt_add_signExtend (s.reg sr1) imm5, hcond, frame⟩
  case andReg =>
    obtain ⟨t, hexec, hreg, hcond, frame⟩ := andRegisterResult dr sr1 sr2 s
    rw [← hreg, flag_eq_sign] at hcond
    exact ⟨t, hexec, fun k => hreg ▸ BitVec.getLsbD_and, hcond, frame⟩

end Sys2Proof.Machine

/-! # Load and store: LD, LDI, LDR, LEA, ST, STI and STR -/

namespace Sys2Proof.Machine

/-! ## Loads (41_load_store.md R130 to R134)

LD and LDR are one load from their address, LDI one load from where its pointer's read leaves the machine; so
`loadWord_loadsFrom` says once what a load does. -/

theorem exec_ld (dr : Reg) (off9 : BitVec 9) (s : State) :
    exec (.ld dr off9) s = (loadWord dr (s.pc + off9.signExtend 16) s).outcome := rfl

theorem exec_ldr (dr b : Reg) (off6 : BitVec 6) (s : State) :
    exec (.ldr dr b off6) s = (loadWord dr (s.reg b + off6.signExtend 16) s).outcome := rfl

theorem exec_ldi (dr : Reg) (off9 : BitVec 9) (s : State) :
    exec (.ldi dr off9) s = ((memRead (s.pc + off9.signExtend 16) s).andThen (loadWord dr)).outcome := rfl

theorem exec_ldi_of_pointer {dr : Reg} {off9 : BitVec 9} {s u : State} {p : Word}
    (h : memRead (s.pc + off9.signExtend 16) s = .done p u) : exec (.ldi dr off9) s = (loadWord dr p u).outcome := by
  rw [exec_ldi, h, Op.andThen_done]

theorem exec_ldi_of_pointer_fails {dr : Reg} {off9 : BitVec 9} {s t : State}
    (h : memRead (s.pc + off9.signExtend 16) s = .ended t) : exec (.ldi dr off9) s = .next t := by
  rw [exec_ldi, h, Op.andThen_ended, Op.outcome_ended]

theorem loadWord_of_memRead {dr : Reg} {ea v : Word} {s u : State} (h : memRead ea s = .done v u) :
    loadWord dr ea s = .done () (u.setReg dr v) := by
  rw [loadWord, h, Op.andThen_done, loadInto]

/-- A read outside 0xFE00 gives the stored word and leaves the state as it was (20_memory.md R52). -/
theorem memRead_done_plain {a v : Word} {s u : State} (h : memRead a s = .done v u) (ha : a ≠ kbsrAddr) :
    v = s.mem.read a ∧ u = s := by
  cases (memRead_plain ha s).symm.trans h
  exact ⟨rfl, rfl⟩

/-- A read that ends the step is a failing poll of 0xFE00: IoError, and only what a read may change (R53, D5). -/
theorem memRead_ended_ioError {a : Word} {s t : State} (h : memRead a s = .ended t) :
    a = kbsrAddr ∧ memRead kbsrAddr s = .ended t ∧ t.run = .halted .ioError ∧ ReadFrame s t := by
  obtain ⟨rfl, hrun⟩ := memRead_ended h
  exact ⟨rfl, h, hrun, memRead_ended_readFrame h⟩

/-- A load writes the word its read gives, or stops at the read's IoError. -/
theorem loadWord_loadsFrom (dr : Reg) (ea : Word) (s : State) : (loadWord dr ea s).Leaves (LoadsFrom dr ea s) := by
  rcases loadWord_cases dr ea s with ⟨v, u, hread, hload⟩ | ⟨t, hread, hload⟩ <;> rw [hload]
  · exact .inl ⟨v, u, hread, memRead_done_readFrame hread, reg_setReg_same u dr v, rfl, onlyReg_setReg dr v u⟩
  · obtain ⟨hea, -, hrun, frame⟩ := memRead_ended_ioError hread
    exact .inr ⟨hea, hread, hrun, frame⟩

theorem loadWord_outcome (dr : Reg) (ea : Word) (s : State) :
    ∃ t, (loadWord dr ea s).outcome = .next t ∧ LoadsFrom dr ea s t := by
  obtain ⟨t, ht⟩ := (loadWord dr ea s).outcome_next
  exact ⟨t, ht, (loadWord_loadsFrom dr ea s).outcome ht⟩

/-- A load from an address other than 0xFE00 gives the stored word and changes only DR and COND (R130). -/
theorem LoadsFrom.stored {dr : Reg} {ea : Word} {s t : State} (h : LoadsFrom dr ea s t) (hea : ea ≠ kbsrAddr) :
    t.reg dr = s.mem.read ea ∧ t.cond = flag (t.reg dr) ∧ OnlyReg dr s t := by
  rcases h with ⟨v, u, hread, -, hreg, hcond, frame⟩ | ⟨hkbsr, -⟩
  · obtain ⟨rfl, rfl⟩ := memRead_done_plain hread hea
    exact ⟨hreg, hreg ▸ hcond, frame⟩
  · exact absurd hkbsr hea

/-- Settles O27: LD is the load from pc + sext(PCoffset9). -/
theorem ldResult : Obligations.LdResult := by
  unfold Obligations.LdResult
  intro dr off9 s
  obtain ⟨t, ht, load⟩ := loadWord_outcome dr (s.pc + off9.signExtend 16) s
  exact ⟨t, (exec_ld dr off9 s).trans ht, load, load.stored⟩

/-- Settles O29: LDR is the load from x[BaseR] + sext(offset6). -/
theorem ldrResult : Obligations.LdrResult := by
  unfold Obligations.LdrResult
  intro dr b off6 s
  obtain ⟨t, ht, load⟩ := loadWord_outcome dr (s.reg b + off6.signExtend 16) s
  exact ⟨t, (exec_ldr dr b off6 s).trans ht, load, load.stored⟩

/-- Settles O28, by the pointer's read: it gives an address, from which LDI loads, or it raises IoError at 0xFE00. -/
theorem ldiResult : Obligations.LdiResult := by
  unfold Obligations.LdiResult
  intro dr off9 s
  cases hm : memRead (s.pc + off9.signExtend 16) s with
  | done p u =>
    obtain ⟨t, ht, load⟩ := loadWord_outcome dr p u
    refine ⟨t, (exec_ldi_of_pointer hm).trans ht, .inl ⟨p, u, rfl, memRead_done_readFrame hm, load⟩, fun hptr hea => ?_⟩
    obtain ⟨rfl, rfl⟩ := memRead_done_plain hm hptr
    exact load.stored hea
  | ended t =>
    obtain ⟨hkbsr, fails⟩ := memRead_ended_ioError hm
    exact ⟨t, exec_ldi_of_pointer_fails hm, .inr ⟨hkbsr, fails⟩, fun hptr => absurd hkbsr hptr⟩

/-- Settles O30: once the pointer's read gives `p`, LDI is the load from `p`, which is what the LD is and which writes
the word its read gives. -/
theorem ldiIsLdFromThePointer : Obligations.LdiIsLdFromThePointer := by
  unfold Obligations.LdiIsLdFromThePointer
  intro dr off9 off9' s s1 p hpointer
  have hldi : exec (.ldi dr off9) s = (loadWord dr p s1).outcome := exec_ldi_of_pointer hpointer
  refine ⟨?sameOutcome, fun v s2 hread => ?value⟩
  case sameOutcome =>
    rintro rfl
    exact hldi.trans (exec_ld dr off9' s1).symm
  case value =>
    rw [loadWord_of_memRead hread] at hldi
    exact ⟨s2.setReg dr v, hldi, reg_setReg_same s2 dr v, setReg_cond s2 dr v⟩

/-! ## LEA (R136, R137) -/

theorem exec_lea (dr : Reg) (off9 : BitVec 9) (s : State) :
    exec (.lea dr off9) s = .next (s.setReg dr (s.pc + off9.signExtend 16)) := rfl

/-- Settles O31: LEA writes the address itself, as an operate instruction writes its result. -/
theorem leaResult : Obligations.LeaResult := by
  unfold Obligations.LeaResult
  exact fun dr off9 s => writesResult_of_exec (exec_lea dr off9 s)

/-! ## Stores (R138 to R142) -/

theorem exec_st (sr : Reg) (off9 : BitVec 9) (s : State) :
    exec (.st sr off9) s = .next (memWrite (s.pc + off9.signExtend 16) (s.reg sr) s) := rfl

theorem exec_str (sr b : Reg) (off6 : BitVec 6) (s : State) :
    exec (.str sr b off6) s = .next (memWrite (s.reg b + off6.signExtend 16) (s.reg sr) s) := rfl

theorem exec_sti (sr : Reg) (off9 : BitVec 9) (s : State) :
    exec (.sti sr off9) s = ((memRead (s.pc + off9.signExtend 16) s).andThen fun ea u =>
      .done () (memWrite ea (u.reg sr) u)).outcome := rfl

/-- The read leaves the registers as they were, so what is stored is SR's word before it (R140). -/
theorem exec_sti_of_pointer {sr : Reg} {off9 : BitVec 9} {s u : State} {ea : Word}
    (h : memRead (s.pc + off9.signExtend 16) s = .done ea u) :
    exec (.sti sr off9) s = .next (memWrite ea (s.reg sr) u) := by
  rw [exec_sti, h, Op.andThen_done, Op.outcome_done, (memRead_done_portFrame h).reg sr]

theorem exec_sti_of_pointer_fails {sr : Reg} {off9 : BitVec 9} {s t : State}
    (h : memRead (s.pc + off9.signExtend 16) s = .ended t) : exec (.sti sr off9) s = .next t := by
  rw [exec_sti, h, Op.andThen_ended, Op.outcome_ended]

/-- An instruction that is a write of `v` at `ea` leaves `v` there and changes no other word and nothing else
(20_memory.md R55). -/
theorem storesWord_of_exec {i : Instr} {ea v : Word} {s : State} (h : exec i s = .next (memWrite ea v s)) :
    ∃ t, exec i s = .next t ∧ t.mem.read ea = v ∧ OnlyWord ea s t :=
  ⟨memWrite ea v s, h, Memory.read_write_same s.mem ea v, onlyWord_memWrite ea v s⟩

/-- Settles O32: ST is a write of SR at pc + sext(PCoffset9). -/
theorem stResult : Obligations.StResult := by
  unfold Obligations.StResult
  exact fun sr off9 s => storesWord_of_exec (exec_st sr off9 s)

/-- Settles O34: STR is a write of SR at x[BaseR] + sext(offset6). -/
theorem strResult : Obligations.StrResult := by
  unfold Obligations.StrResult
  exact fun sr b off6 s => storesWord_of_exec (exec_str sr b off6 s)

/-- Settles O33, by the pointer's read: it gives the address STI writes at, or it raises IoError at 0xFE00. -/
theorem stiResult : Obligations.StiResult := by
  unfold Obligations.StiResult
  intro sr off9 s
  cases hm : memRead (s.pc + off9.signExtend 16) s with
  | done ea u =>
    have stored : (memWrite ea (s.reg sr) u).mem.read ea = s.reg sr := Memory.read_write_same u.mem ea (s.reg sr)
    have only := onlyWord_memWrite ea (s.reg sr) u
    refine ⟨_, exec_sti_of_pointer hm, .inl ⟨ea, u, rfl, memRead_done_readFrame hm, stored, only⟩, fun hptr => ?_⟩
    obtain ⟨rfl, rfl⟩ := memRead_done_plain hm hptr
    exact ⟨stored, only⟩
  | ended t =>
    obtain ⟨hkbsr, fails⟩ := memRead_ended_ioError hm
    exact ⟨t, exec_sti_of_pointer_fails hm, .inr ⟨hkbsr, fails⟩, fun hptr => absurd hkbsr hptr⟩

end Sys2Proof.Machine

/-! # Control transfer: BR, JMP, RET, JSR and JSRR -/

namespace Sys2Proof.Machine

/-! ## Transfers that write PC alone (42_control.md R161 to R164) -/

theorem onlyPc_setPc (s : State) (target : Word) : OnlyPc s (s.setPc target) := rfl

/-- A branch that is not taken is a transfer to where PC stands already. -/
theorem exec_br (n z p : Bool) (off9 : BitVec 9) (s : State) : exec (.br n z p off9) s =
    .next (s.setPc (if brTaken s.cond n z p then s.pc + off9.signExtend 16 else s.pc)) := by
  change Host.Outcome.next (if brTaken s.cond n z p then s.setPc (s.pc + off9.signExtend 16) else s) = _
  split <;> rfl

theorem exec_jmp (b : Reg) (s : State) : exec (.jmp b) s = .next (s.setPc (s.reg b)) := rfl

theorem exec_ret (s : State) : exec .ret s = .next (s.setPc (s.reg 7#3)) := rfl

/-- An instruction that is a write of `target` to PC leaves it there and changes nothing else (10_state.md R27). -/
theorem transfersTo_of_exec {i : Instr} {target : Word} {s : State} (h : exec i s = .next (s.setPc target)) :
    ∃ t, exec i s = .next t ∧ t.pc = target ∧ OnlyPc s t :=
  ⟨s.setPc target, h, setPc_pc s target, onlyPc_setPc s target⟩

theorem brTaken_iff (cond : Word) (n z p : Bool) : brTaken cond n z p = true ↔
    cond &&& (BitVec.ofBool n ++ BitVec.ofBool z ++ BitVec.ofBool p).setWidth 16 ≠ 0#16 := bne_iff_ne

/-- Settles O36: BR is a write of PC, to its target or to where it stands. -/
theorem branchResult : Obligations.BranchResult := by
  unfold Obligations.BranchResult
  intro n z p off9 s
  obtain ⟨t, hexec, hpc, only⟩ := transfersTo_of_exec (exec_br n z p off9 s)
  simp only [brTaken_iff] at hpc
  exact ⟨t, hexec, only, hpc⟩

/-- Settles O38: JMP and RET are a write of PC with the base register's value. -/
theorem jumpAndReturnResult : Obligations.JumpAndReturnResult := by
  unfold Obligations.JumpAndReturnResult
  exact ⟨fun b s => transfersTo_of_exec (exec_jmp b s), fun s => transfersTo_of_exec (exec_ret s)⟩

/-! ## The branch condition table (R162) -/

theorem condLegal_iff (c : Word) : condLegal c = true ↔ c = 4#16 ∨ c = 2#16 ∨ c = 1#16 := by
  simp [condLegal, condPos, condZro, condNeg, or_comm]

/-- Each of the three values of COND is one bit, and BR is taken exactly when the instruction's bit for it is set. -/
theorem brTaken_iff_of_condLegal {cond : Word} (h : condLegal cond = true) (n z p : Bool) :
    brTaken cond n z p = true ↔ n = true ∧ cond = 4#16 ∨ z = true ∧ cond = 2#16 ∨ p = true ∧ cond = 1#16 := by
  rcases (condLegal_iff cond).mp h with rfl | rfl | rfl <;> revert n z p <;> decide

/-- Settles O37, by the table of `brTaken`: its row 000 names no value and its row 111 names all three. -/
theorem branchConditionTable : Obligations.BranchConditionTable := by
  unfold Obligations.BranchConditionTable
  intro n z p off9 s hlegal
  obtain ⟨t, hexec, hpc, -⟩ := transfersTo_of_exec (exec_br n z p off9 s)
  simp only [brTaken_iff_of_condLegal hlegal] at hpc
  refine ⟨t, hexec, fun taken => hpc.trans (if_pos taken), fun notTaken => hpc.trans (if_neg notTaken), ?never, ?always⟩
  case never =>
    rintro rfl rfl rfl
    exact hpc.trans (if_neg (by simp))
  case always =>
    rintro rfl rfl rfl
    exact hpc.trans (if_pos (by simpa using (condLegal_iff s.cond).mp hlegal))

/-! ## Subroutine calls (R165 to R168) -/

theorem exec_jsr (off11 : BitVec 11) (s : State) :
    exec (.jsr off11) s = .next ((s.link s.pc).setPc (s.pc + off11.signExtend 16)) := rfl

theorem exec_jsrr (b : Reg) (s : State) : exec (.jsrr b) s =
    .next ((s.link s.pc).setPc (if s.cfg.jsrrReadsBaseFirst then s.reg b else (s.link s.pc).reg b)) := rfl

/-- A call leaves the return address in R7 and its target in PC, and changes COND under `LINK_SETS_COND` alone (R165). -/
theorem callsTo_of_exec {i : Instr} {target : Word} {s : State}
    (h : exec i s = .next ((s.link s.pc).setPc target)) :
    ∃ t, exec i s = .next t ∧ t.reg 7#3 = s.pc ∧ t.pc = target ∧ OnlyLink s t :=
  ⟨(s.link s.pc).setPc target, h, reg_link_same s s.pc, setPc_pc (s.link s.pc) target, onlyLink_link s target⟩

/-- Settles O39: JSR is the call to pc + sext(PCoffset11). -/
theorem jsrResult : Obligations.JsrResult := by
  unfold Obligations.JsrResult
  exact fun off11 s => callsTo_of_exec (exec_jsr off11 s)

/-- Settles O40: JSRR is a call whose target only the link write can change, and that only where the base is R7 and is
read after it. -/
theorem jsrrResult : Obligations.JsrrResult := by
  unfold Obligations.JsrrResult
  intro b s
  obtain ⟨t, hexec, hlink, hpc, only⟩ := callsTo_of_exec (exec_jsrr b s)
  refine ⟨t, hexec, hlink, only, fun hb => ?otherBase, ?linkFirst, ?baseFirst⟩
  case otherBase =>
    have unlinked : (s.link s.pc).reg b = s.reg b := (reg_link s b s.pc).trans (if_neg hb)
    rw [hpc, unlinked, ite_self]
  case linkFirst =>
    rintro rfl hfirst
    rw [hpc, hfirst, if_neg Bool.false_ne_true, reg_link_same]
  case baseFirst =>
    rintro rfl hfirst
    rw [hpc, if_pos hfirst]

end Sys2Proof.Machine

/-! # Traps: the services, one by one -/

namespace Sys2Proof.Machine

/-! ## What the services find after the link write (43_trap.md R181) -/

theorem keptInput_link (s : State) (v : Word) : KeptInput s (s.link v) := ⟨link_reads s v, link_taken s v⟩

@[simp] theorem nextAnswer_link (s : State) (v : Word) : (s.link v).nextAnswer = s.nextAnswer :=
  nextAnswer_congr (link_reads s v) (link_tail s v) (link_taken s v)

@[simp] theorem writeAnswer_link (s : State) (v : Word) (i : Nat) : (s.link v).writeAnswer i = s.writeAnswer i :=
  writeAnswer_congr (link_writes s v) (link_drawn s v) i

@[simp] theorem readyWord_link (s : State) (v : Word) : readyWord (s.link v) = readyWord s := by simp [readyWord]

@[simp] theorem inputPoll_output (s : State) : s.inputPoll.2.output = s.output := (inputPoll_frame s).outputSame

@[simp] theorem inputPoll_writes (s : State) : s.inputPoll.2.writes = s.writes := (inputPoll_frame s).writes

/-- The link write changes nothing a poll depends on. -/
theorem inputPoll_link (s : State) (v : Word) :
    (s.link v).inputPoll.1 = s.inputPoll.1 ∧ (s.link v).inputPoll.2.drawn = s.inputPoll.2.drawn := by
  obtain ⟨hanswer, -, hdrawn⟩ := inputPoll_congr (nextAnswer_link s v) (link_polls s v) (link_drawn s v)
  exact ⟨hanswer, hdrawn⟩

/-- A service is entered with its link write made, and TRAP's next state is where it leaves the machine. -/
theorem exec_trap (vect : BitVec 8) (s : State) : exec (.trap vect) s = (service vect (s.link s.pc)).outcome := rfl

theorem exec_trap_done {vect : BitVec 8} {s t : State} (h : service vect (s.link s.pc) = .done () t) :
    exec (.trap vect) s = .next t := by
  rw [exec_trap, h, Op.outcome_done]

theorem exec_trap_ended {vect : BitVec 8} {s t : State} (h : service vect (s.link s.pc) = .ended t) :
    exec (.trap vect) s = .next t := by
  rw [exec_trap, h, Op.outcome_ended]

/-- Settles O41: no service writes PC or a register other than R0 (`service_leaves`), so R7 stays what the link write
made it. -/
theorem everyTrapLinksAndKeepsPc : Obligations.EveryTrapLinksAndKeepsPc := by
  unfold Obligations.EveryTrapLinksAndKeepsPc
  intro vect s
  obtain ⟨t, ht⟩ := Op.outcome_next (service vect (s.link s.pc))
  obtain ⟨hpc, -, hreg⟩ := (service_leaves vect (s.link s.pc)).outcome ht
  refine ⟨t, ht, (hreg 7#3 (by decide)).trans (reg_link_same s s.pc), hpc.trans (link_pc s s.pc), fun r h0 h7 => ?_⟩
  exact (hreg r h0).trans ((reg_link s r s.pc).trans (if_neg h7))

/-! ## Services that use the ports alone -/

/-- From `s` to `t` only the run state and the ports, the polls' draws excepted, may differ. -/
def OnlyPorts (s t : State) : Prop :=
  t = { s with run := t.run, reads := t.reads, taken := t.taken, writes := t.writes, drawn := t.drawn,
               output := t.output }

/-- The state an accepted write of `e` leaves (00_scope.md R8). -/
def State.wrote (s : State) (e : OutEvent) : State := { s.drawWrite with output := s.output ++ [e] }

/-- The state a failing write leaves: no event, and the run stopped (log 10, D17). -/
def State.writeFailed (s : State) : State := { s.drawWrite with run := .halted .ioError }

theorem emit_eq_wrote {e : OutEvent} {s : State} (h : s.writeAnswer 0 = .ok) : emit e s = .done () (s.wrote e) :=
  emit_ok h

theorem emit_eq_writeFailed {e : OutEvent} {s : State} (h : s.writeAnswer 0 = .fail) :
    emit e s = .ended s.writeFailed := emit_fail h

@[simp] theorem wrote_run (s : State) (e : OutEvent) : (s.wrote e).run = s.run := rfl

@[simp] theorem wrote_output (s : State) (e : OutEvent) : (s.wrote e).output = s.output ++ [e] := rfl

@[simp] theorem writeAnswer_wrote (s : State) (e : OutEvent) (i : Nat) :
    (s.wrote e).writeAnswer i = s.writeAnswer (i + 1) := writeAnswer_drawWrite s i

@[simp] theorem writeFailed_output (s : State) : s.writeFailed.output = s.output := rfl

@[simp] theorem takeInput_writeAnswer (s : State) (i : Nat) : s.takeInput.writeAnswer i = s.writeAnswer i :=
  writeAnswer_congr (takeInput_writes s) (takeInput_drawn s) i

namespace OnlyPorts

variable {s t u : State}

theorem refl (s : State) : OnlyPorts s s := rfl

theorem trans (h : OnlyPorts s t) (k : OnlyPorts t u) : OnlyPorts s u := by
  unfold OnlyPorts at *
  rw [k, h]

theorem wrote (h : OnlyPorts s t) (e : OutEvent) : OnlyPorts s (t.wrote e) := h.trans rfl

theorem writeFailed (h : OnlyPorts s t) : OnlyPorts s t.writeFailed := h.trans rfl

theorem setRun (h : OnlyPorts s t) (r : RunState) : OnlyPorts s { t with run := r } := h.trans rfl

theorem takeInput (h : OnlyPorts s t) : OnlyPorts s t.takeInput := by
  refine h.trans ?_
  unfold OnlyPorts State.takeInput
  split <;> rfl

/-- A service that uses the ports alone keeps the TRAP's frame. -/
theorem trapFrame (h : OnlyPorts (s.link s.pc) t) : TrapFrame s t := trapFrame_of_link h

/-- One that then stores a character keeps the character's frame, if the run goes on. -/
theorem charFrame (h : OnlyPorts (s.link s.pc) t) (hrun : t.run = s.run) (b : Byte) :
    CharFrame b s (t.setReg 0#3 (zext8 b)) := by
  refine charFrame_of_link ?_
  unfold OnlyPorts at h
  rw [hrun, ← link_run s s.pc] at h
  rw [h]
  rfl

end OnlyPorts

/-! ### GETC (R182) -/

theorem getc_byte {s : State} {b : Byte} (h : s.nextAnswer = some (.byte b)) :
    getc s = .done () (s.takeInput.setReg 0#3 (zext8 b)) := by
  rw [getc, inputRead_byte h, Op.andThen_done, putChar]

theorem getc_fail {s : State} (h : s.nextAnswer = some .fail) :
    getc s = .ended { s.takeInput with run := .halted .ioError } := by
  rw [getc, inputRead_fail h, Op.andThen_ended]

theorem getc_none {s : State} (h : s.nextAnswer = none) : getc s = .ended { s with run := .waiting .getc } := by
  rw [getc, inputRead_none h, Op.andThen_ended]

/-- Settles O42, by what the read of GETC finds after the link write: a byte, Fail, or nothing. -/
theorem getcResult : Obligations.GetcResult := by
  unfold Obligations.GetcResult
  intro s
  have linked := OnlyPorts.refl (s.link s.pc)
  have kept := keptInput_link s s.pc
  have took : TookInput s (s.link s.pc).takeInput := kept.takeInput
  simp only [← nextAnswer_link s s.pc]
  refine ⟨fun b h => ?byte, fun h => ?fails, fun h => ?waits⟩
  case byte => exact ⟨_, exec_trap_done (getc_byte h), linked.takeInput.charFrame (by simp) b, took, by simp⟩
  case fails =>
    exact ⟨_, exec_trap_ended (getc_fail h), (linked.takeInput.setRun _).trapFrame, rfl, took, by simp⟩
  case waits => exact ⟨_, exec_trap_ended (getc_none h), (linked.setRun _).trapFrame, rfl, kept, link_output s s.pc⟩

/-! ### OUT, HALT and the vectors of no service (R183, R187, R188) -/

theorem lowByte_eq_setWidth (w : Word) : lowByte w = w.setWidth 8 :=
  (BitVec.setWidth_eq_extractLsb' (by decide : 8 ≤ 16)).symm

/-- Settles O43, by the host's answer to OUT's one write. -/
theorem outResult : Obligations.OutResult := by
  unfold Obligations.OutResult
  intro s
  have linked := OnlyPorts.refl (s.link s.pc)
  have kept := keptInput_link s s.pc
  simp only [← writeAnswer_link s s.pc]
  refine ⟨fun h => ⟨_, exec_trap_done (emit_eq_wrote h), (linked.wrote _).trapFrame, ?run, kept, ?written⟩,
    fun h => ⟨_, exec_trap_ended (emit_eq_writeFailed h), linked.writeFailed.trapFrame, rfl, kept, ?same⟩⟩
  case run => simp
  case written => simp [lowByte_eq_setWidth, reg_link]
  case same => simp

theorem halt_ok {s : State} (h : s.writeAnswer 0 = .ok) :
    halt s = .ended { s.wrote (.notice .haltNotice) with run := .halted .haltTrap } := by
  rw [halt, outputNotice, emit_eq_wrote h, Op.andThen_done, raise]

theorem halt_fail {s : State} (h : s.writeAnswer 0 = .fail) : halt s = .ended s.writeFailed := by
  rw [halt, outputNotice, emit_eq_writeFailed h, Op.andThen_ended]

/-- Settles O48, by the host's answer to the notice. -/
theorem haltResult : Obligations.HaltResult := by
  unfold Obligations.HaltResult
  intro s
  have linked := OnlyPorts.refl (s.link s.pc)
  have kept := keptInput_link s s.pc
  simp only [← writeAnswer_link s s.pc]
  refine ⟨fun h => ?accepted, fun h => ?fails⟩
  case accepted =>
    exact ⟨_, exec_trap_ended (halt_ok h), ((linked.wrote _).setRun _).trapFrame, rfl, rfl, kept, by simp⟩
  case fails =>
    exact ⟨_, exec_trap_ended (halt_fail h), linked.writeFailed.trapFrame, rfl, rfl, kept, by simp⟩

theorem service_unimplemented {vect : BitVec 8} (h : vect.toNat < 0x20 ∨ 0x25 < vect.toNat) (s : State) :
    service vect s = .ended { s with run := .halted (.unimplementedTrap vect) } := by
  unfold service
  split
  case h_7 => rfl
  all_goals omega

/-- Settles O49: after the link write such a vector only stops the run (`service_unimplemented`). -/
theorem unimplementedVectorStopsTheRun : Obligations.UnimplementedVectorStopsTheRun := by
  unfold Obligations.UnimplementedVectorStopsTheRun
  intro vect s h
  have stopped := (OnlyPorts.refl (s.link s.pc)).setRun (.halted (.unimplementedTrap vect))
  exact ⟨_, exec_trap_ended (service_unimplemented h _), stopped.trapFrame, rfl, rfl, keptInput_link s s.pc,
    link_writes s s.pc, link_output s s.pc⟩

/-! ### IN (R185) -/

theorem inAfterPrompt_byte {s : State} {b : Byte} (h : s.nextAnswer = some (.byte b)) (hw : s.writeAnswer 0 = .ok) :
    inAfterPrompt s = .done () ((s.takeInput.wrote (.byte b)).setReg 0#3 (zext8 b)) := by
  rw [inAfterPrompt, inputRead_byte h, Op.andThen_done, outputByte,
    emit_eq_wrote ((takeInput_writeAnswer s 0).trans hw), Op.andThen_done, putChar]

theorem inAfterPrompt_echo_fails {s : State} {b : Byte} (h : s.nextAnswer = some (.byte b))
    (hw : s.writeAnswer 0 = .fail) : inAfterPrompt s = .ended s.takeInput.writeFailed := by
  rw [inAfterPrompt, inputRead_byte h, Op.andThen_done, outputByte,
    emit_eq_writeFailed ((takeInput_writeAnswer s 0).trans hw), Op.andThen_ended]

theorem inAfterPrompt_fail {s : State} (h : s.nextAnswer = some .fail) :
    inAfterPrompt s = .ended { s.takeInput with run := .halted .ioError } := by
  rw [inAfterPrompt, inputRead_fail h, Op.andThen_ended]

theorem inAfterPrompt_none {s : State} (h : s.nextAnswer = none) :
    inAfterPrompt s = .ended { s with run := .waiting .inEcho } := by
  rw [inAfterPrompt, inputRead_none h, Op.andThen_ended]

theorem inService_ok {s : State} (h : s.writeAnswer 0 = .ok) :
    inService s = inAfterPrompt (s.wrote (.notice .inPrompt)) := by
  rw [inService, outputNotice, emit_eq_wrote h, Op.andThen_done]

theorem inService_fail {s : State} (h : s.writeAnswer 0 = .fail) : inService s = .ended s.writeFailed := by
  rw [inService, outputNotice, emit_eq_writeFailed h, Op.andThen_ended]

/-- Settles O47: the prompt is written or fails; once written, `inAfterPrompt` is run with the prompt's answer drawn,
by what its read and its echo find. -/
theorem inResult : Obligations.InResult := by
  unfold Obligations.InResult
  intro s
  have linked := OnlyPorts.refl (s.link s.pc)
  have kept := keptInput_link s s.pc
  have prompted := linked.wrote (.notice .inPrompt)
  have took : TookInput s ((s.link s.pc).wrote (.notice .inPrompt)).takeInput := KeptInput.takeInput kept
  simp only [← nextAnswer_link s s.pc, ← writeAnswer_link s s.pc]
  refine ⟨fun b hw h he => ?byte, fun hw => ?promptFails, fun hw h => ?readFails, fun b hw h he => ?echoFails,
    fun hw h => ?waits⟩
  case byte =>
    have served := (inService_ok hw).trans (inAfterPrompt_byte h ((writeAnswer_wrote _ _ 0).trans he))
    exact ⟨_, exec_trap_done served, (prompted.takeInput.wrote _).charFrame (by simp) b, took, by simp⟩
  case promptFails =>
    exact ⟨_, exec_trap_ended (inService_fail hw), linked.writeFailed.trapFrame, rfl, kept, by simp⟩
  case readFails =>
    have served := (inService_ok hw).trans (inAfterPrompt_fail h)
    exact ⟨_, exec_trap_ended served, (prompted.takeInput.setRun _).trapFrame, rfl, took, by simp⟩
  case echoFails =>
    have served := (inService_ok hw).trans (inAfterPrompt_echo_fails h ((writeAnswer_wrote _ _ 0).trans he))
    exact ⟨_, exec_trap_ended served, prompted.takeInput.writeFailed.trapFrame, rfl, took, by simp⟩
  case waits =>
    have served := (inService_ok hw).trans (inAfterPrompt_none h)
    exact ⟨_, exec_trap_ended served, (prompted.setRun _).trapFrame, rfl, kept, by simp⟩

/-! ## Strings clear of the keyboard status word (R184, R186) -/

section

variable {k : StringService} {s : State} {ws : List Word}

theorem exec_string_eq_emitAll (h : stringAt s.mem (s.reg 0#3) ws) :
    exec (.trap k.vector) s = (emitAll (stringBytes k ws) (s.link s.pc)).outcome := by
  have linked : stringAt (s.link s.pc).mem (s.reg 0#3) ws := by rwa [link_mem]
  have hfuel : ws.length < stringPass := stringAt_length h
  rw [exec_string, stringLoop_eq_emitAll linked hfuel]

/-- Such a string polls nothing, so its TRAP keeps the frame and takes no input. -/
theorem exec_string_frame {t : State} (h : stringAt s.mem (s.reg 0#3) ws)
    (ht : exec (.trap k.vector) s = .next t) : TrapFrame s t ∧ KeptInput s t := by
  rw [exec_string_eq_emitAll h] at ht
  have hrest := (emitAll_rest _ _).outcome ht
  have only : OnlyPorts (s.link s.pc) t := by unfold OnlyPorts; rw [hrest]
  have kept : KeptInput s t := by rw [hrest]; exact keptInput_link s s.pc
  exact ⟨only.trapFrame, kept⟩

/-- A string whose bytes the host accepts is written whole. -/
theorem exec_string_ok (h : stringAt s.mem (s.reg 0#3) ws)
    (hok : ∀ i, i < (stringBytes k ws).length → s.writeAnswer i = .ok) :
    ∃ t, exec (.trap k.vector) s = .next t ∧ TrapFrame s t ∧ t.run = s.run ∧ KeptInput s t ∧
      t.output = s.output ++ (stringBytes k ws).map .byte := by
  simp only [← writeAnswer_link s s.pc] at hok
  obtain ⟨t, ht, houtput, hrest⟩ := emitAll_ok hok
  have hexec : exec (.trap k.vector) s = .next t := by rw [exec_string_eq_emitAll h, ht, Op.outcome_done]
  obtain ⟨frame, kept⟩ := exec_string_frame h hexec
  refine ⟨t, hexec, frame, ?_, kept, by rw [houtput, link_output]⟩
  rw [hrest]
  exact link_run s s.pc

/-- A failing write stops the string there, the bytes before it written (60_exceptions.md R222). -/
theorem exec_string_fail {n : Nat} (h : stringAt s.mem (s.reg 0#3) ws) (hn : n < (stringBytes k ws).length)
    (hok : ∀ i, i < n → s.writeAnswer i = .ok) (hfail : s.writeAnswer n = .fail) :
    ∃ t, exec (.trap k.vector) s = .next t ∧ TrapFrame s t ∧ t.run = .halted .ioError ∧ KeptInput s t ∧
      t.output = s.output ++ ((stringBytes k ws).take n).map .byte := by
  simp only [← writeAnswer_link s s.pc] at hok hfail
  obtain ⟨t, ht, hrun, houtput, -⟩ := emitAll_fail hn hok hfail
  have hexec : exec (.trap k.vector) s = .next t := by rw [exec_string_eq_emitAll h, ht, Op.outcome_ended]
  obtain ⟨frame, kept⟩ := exec_string_frame h hexec
  exact ⟨t, hexec, frame, hrun, kept, by rw [houtput, link_output]⟩

end

/-- Settles O44: PUTS's bytes are the low bytes of the words. -/
theorem putsWritesTheString : Obligations.PutsWritesTheString := by
  unfold Obligations.PutsWritesTheString
  intro s ws h hok
  have written := exec_string_ok (k := .puts) h (by simpa [stringBytes] using hok)
  simpa [stringBytes, StringService.vector, Function.comp_def, lowByte_eq_setWidth] using written

/-- Settles O45: PUTSP's bytes are the packed bytes of the words. -/
theorem putspWritesThePackedString : Obligations.PutspWritesThePackedString := by
  unfold Obligations.PutspWritesThePackedString
  exact fun s ws h hok => exec_string_ok (k := .putsp) h hok

/-! ## Strings that begin at the keyboard status word (R184, R186; 20_memory.md R53) -/

/-- Only the words other than the keyboard status word make a string. -/
theorem stringAt_congr {m n : Memory} {a : Word} {ws : List Word} (h : stringAt m a ws)
    (hread : ∀ x, x ≠ kbsrAddr → n.read x = m.read x) : stringAt n a ws := by
  obtain ⟨hwords, hzero, hclear⟩ := h
  refine ⟨fun i hi => ?_, ?_, hclear⟩
  · rw [hread _ (hclear i hi.le)]
    exact hwords i hi
  · rw [hread _ (hclear _ le_rfl)]
    exact hzero

/-- A string whose first word is read with a poll, the rest of it clear of the keyboard status word. -/
theorem stringLoop_word_eq_emitAll {k : StringService} {fuel : Nat} {a w : Word} {ws : List Word} {s u : State}
    (hm : memRead a s = .done w u) (hw : w ≠ 0#16) (h : stringAt u.mem (a + 1#16) ws) (hfuel : ws.length < fuel) :
    stringLoop k (fuel + 1) a s = emitAll (stringBytes k (w :: ws)) u := by
  rw [stringLoop_word hm hw, putString_eq_emitAll, stringBytes_cons k w ws, emitAll_append]
  have written := emitAll_rest (stringBytes k [w]) u
  cases he : emitAll (stringBytes k [w]) u with
  | ended t => rfl
  | done _ t =>
    rw [he] at written
    have hmem : t.mem = u.mem := by rw [show t = _ from written]
    exact stringLoop_eq_emitAll (hmem ▸ h) hfuel

/-- A string that begins right after the keyboard status word stops short of it. -/
theorem stringAt_length_after_kbsr {m : Memory} {ws : List Word} (h : stringAt m (kbsrAddr + 1#16) ws) :
    ws.length < 65535 := by
  obtain ⟨-, -, hclear⟩ := h
  by_contra hlong
  exact hclear 65535 (by omega) rfl

section

variable {k : StringService} {s : State}

/-- The string loop from 0xFE00 on, the fuel of its first word set apart. -/
theorem exec_string_at_kbsr (h0 : s.reg 0#3 = kbsrAddr) :
    exec (.trap k.vector) s = (stringLoop k (65535 + 1) kbsrAddr (s.link s.pc)).outcome := by
  rw [exec_string, h0, stringPass]

theorem exec_string_notReady (h0 : s.reg 0#3 = kbsrAddr) (hp : s.inputPoll.1 = false) :
    exec (.trap k.vector) s = .next (memWrite kbsrAddr 0#16 (s.link s.pc).inputPoll.2) := by
  have polled := memRead_kbsr_notReady ((inputPoll_link s s.pc).1.trans hp)
  rw [exec_string_at_kbsr h0, stringLoop_zero polled, Op.outcome_done]

theorem exec_string_poll_fails (h0 : s.reg 0#3 = kbsrAddr) (hp : s.inputPoll.1 = true)
    (ha : s.nextAnswer = some .fail) : exec (.trap k.vector) s = .next
      { (memWrite kbsrAddr (readyWord s) (s.link s.pc).inputPoll.2).takeInput with run := .halted .ioError } := by
  have polled := memRead_kbsr_fail ((inputPoll_link s s.pc).1.trans hp) ((nextAnswer_link s s.pc).trans ha)
  rw [exec_string_at_kbsr h0, stringLoop_fails polled, Op.outcome_ended, readyWord_link]

/-- The state a ready poll that took the byte `b` leaves after the link write (20_memory.md R53). -/
def State.polledByte (s : State) (b : Byte) : State :=
  memWrite kbdrAddr (zext8 b) (memWrite kbsrAddr (readyWord s) (s.link s.pc).inputPoll.2).takeInput

theorem polledByte_mem (b : Byte) :
    (s.polledByte b).mem = (s.mem.write kbsrAddr (readyWord s)).write kbdrAddr (zext8 b) := by
  simp [State.polledByte]

theorem polledByte_run (b : Byte) : (s.polledByte b).run = s.run := by simp [State.polledByte]

theorem polledByte_output (b : Byte) : (s.polledByte b).output = s.output := by simp [State.polledByte]

/-- The link write and the poll take no input. -/
theorem keptInput_link_polled (v : Word) : KeptInput s (memWrite kbsrAddr v (s.link s.pc).inputPoll.2) := by
  obtain ⟨hreads, htaken⟩ := keptInput_polled (s := s.link s.pc) v
  exact ⟨hreads.trans (link_reads s s.pc), htaken.trans (link_taken s s.pc)⟩

theorem tookInput_polledByte (b : Byte) : TookInput s (s.polledByte b) :=
  (keptInput_link_polled (readyWord s)).takeInput

/-- The answers to the writes after the poll are those that follow its own draw. -/
theorem writeAnswer_polledByte (b : Byte) (i : Nat) :
    (s.polledByte b).writeAnswer i = s.inputPoll.2.writeAnswer i := by
  refine writeAnswer_congr ?_ ?_ i
  · simp [State.polledByte]
  · simp [State.polledByte, (inputPoll_link s s.pc).2]

/-- Away from the keyboard status word, memory after the poll is memory with the byte in KBDR. -/
theorem read_polledByte (b : Byte) {x : Word} (hx : x ≠ kbsrAddr) :
    (s.polledByte b).mem.read x = (s.mem.write kbdrAddr (zext8 b)).read x := by
  rw [polledByte_mem]
  simp only [Memory.read_write, if_neg hx]

theorem read_polledByte_kbsr (b : Byte) : (s.polledByte b).mem.read kbsrAddr = readyWord s := by
  rw [polledByte_mem, Memory.read_write_other _ _ kbdr_ne_kbsr.symm, Memory.read_write_same]

theorem read_polledByte_kbdr (b : Byte) : (s.polledByte b).mem.read kbdrAddr = zext8 b := by
  rw [polledByte_mem, Memory.read_write_same]

/-- If a byte came, the ready word is the string's first, and the rest is read with the byte in KBDR. -/
theorem exec_string_polled {b : Byte} {ws : List Word} (h0 : s.reg 0#3 = kbsrAddr) (hp : s.inputPoll.1 = true)
    (ha : s.nextAnswer = some (.byte b)) (h : stringAt (s.mem.write kbdrAddr (zext8 b)) (kbsrAddr + 1#16) ws) :
    exec (.trap k.vector) s = (emitAll (stringBytes k (readyWord s :: ws)) (s.polledByte b)).outcome := by
  have polled : memRead kbsrAddr (s.link s.pc) = .done (readyWord s) (s.polledByte b) := by
    rw [memRead_kbsr_byte ((inputPoll_link s s.pc).1.trans hp) ((nextAnswer_link s s.pc).trans ha), readyWord_link]
    rfl
  rw [exec_string_at_kbsr h0, stringLoop_word_eq_emitAll polled (readyWord_ne_zero s)
    (stringAt_congr h fun x => read_polledByte b) (stringAt_length_after_kbsr h)]

end

/-- Settles O46: a failing write by `exec_string_fail`; at 0xFE00 by what the poll finds, and where a byte came the
string is written from the state the poll left. -/
theorem stringServicesStopOnAFailureAndPoll : Obligations.StringServicesStopOnAFailureAndPoll := by
  unfold Obligations.StringServicesStopOnAFailureAndPoll
  intro k s
  refine ⟨fun _ _ => exec_string_fail, fun h0 hp => ?notReady, fun h0 hp ha => ?pollFails,
    fun b ws h0 hp ha h hok => ?polled⟩
  case notReady =>
    refine ⟨_, exec_string_notReady h0 hp, ?_, keptInput_link_polled 0#16, ?_, ?_⟩
    · simp
    · simp
    · rw [memWrite_mem]
      exact Memory.read_write_same _ kbsrAddr 0#16
  case pollFails =>
    exact ⟨_, exec_string_poll_fails h0 hp ha, rfl, (keptInput_link_polled (readyWord s)).takeInput, by simp⟩
  case polled =>
    obtain ⟨t, ht, houtput, hrest⟩ := emitAll_ok (s := s.polledByte b) fun i hi =>
      (writeAnswer_polledByte b i).trans (hok i hi)
    have hmem : t.mem = (s.polledByte b).mem := by rw [hrest]
    have took : TookInput s t := by
      rw [hrest]
      exact tookInput_polledByte b
    refine ⟨t, by rw [exec_string_polled h0 hp ha h, ht, Op.outcome_done], ?_, took, ?_, ?_, ?_⟩
    · rw [hrest]; exact polledByte_run b
    · rw [houtput, polledByte_output]
    · rw [hmem]; exact read_polledByte_kbsr b
    · rw [hmem]; exact read_polledByte_kbdr b

end Sys2Proof.Machine

/-! # Unsupported opcodes: RTI and RES -/

namespace Sys2Proof.Machine

/-- The stop RTI and RES share: only the run state changes, and it records the opcode (60_exceptions.md R220, R221). -/
theorem unsupported_outcome (op : BitVec 4) (s : State) :
    (unsupported op s).outcome = .next { s with run := .halted (.unsupportedOpcode op) } := by
  rw [unsupported, raise, Op.outcome_ended]

theorem exec_rti (s : State) : exec .rti s = (unsupported 0x8#4 s).outcome := rfl

theorem exec_res (s : State) : exec .res s = (unsupported 0xD#4 s).outcome := rfl

/-- Settles O51: each instruction is the shared stop, with its own opcode. -/
theorem unsupportedOpcodesStopTheRun : Obligations.UnsupportedOpcodesStopTheRun := by
  unfold Obligations.UnsupportedOpcodesStopTheRun
  intro s
  constructor
  · rw [exec_rti, unsupported_outcome]
  · rw [exec_res, unsupported_outcome]

end Sys2Proof.Machine

/-! # Exceptions: what ends a run, and that every instruction completes -/

namespace Sys2Proof.Machine

/-! ## Raise and poll (60_exceptions.md R221, R236) -/

/-- Settles O5: `raise` writes the run state only, and from Halted there is no step (`haltedHasNoStep`). -/
theorem raiseStopsTheRunAndKeepsTheState : Obligations.RaiseStopsTheRunAndKeepsTheState := by
  unfold Obligations.RaiseStopsTheRunAndKeepsTheState
  exact fun r s => ⟨{ s with run := .halted r }, rfl, rfl, haltedHasNoStep _ r rfl⟩

/-- Settles O26: with nothing pending the poll answers false, and it changes its own draws only. -/
theorem pollIsTrueOnlyWhenInputIsPending : Obligations.PollIsTrueOnlyWhenInputIsPending := by
  unfold Obligations.PollIsTrueOnlyWhenInputIsPending
  exact fun s => ⟨nextAnswer_of_inputPoll, inputPoll_reads s, inputPoll_taken s⟩

/-! ## The run state an instruction leaves (R220, R228, R229; 43_trap.md)

`exec_runAfter` says once in which run state any instruction can leave the machine; what stops a run and that every
instruction completes are read off it. -/

/-- The instructions the row IoError of R220 names: those that read memory for data, and the TRAPs that run a service. -/
def mayRaiseIoError : Instr → Bool
  | .ld _ _ | .ldi _ _ | .ldr _ _ _ | .sti _ _ => true
  | .trap vect => decide (0x20 ≤ vect.toNat ∧ vect.toNat ≤ 0x25)
  | .addReg _ _ _ | .addImm _ _ _ | .andReg _ _ _ | .andImm _ _ _ | .not _ _ => false
  | .lea _ _ | .st _ _ | .str _ _ _ | .br _ _ _ _ | .jmp _ | .ret | .jsr _ | .jsrr _ | .rti | .res => false

/-- The run states in which an instruction executed in `s` can leave the machine. -/
inductive RunAfter (s : State) : Instr → RunState → Prop where
  | goesOn {i : Instr} {r : RunState} (hr : r = s.run) : RunAfter s i r
  | ioError {i : Instr} (hi : mayRaiseIoError i = true) : RunAfter s i (.halted .ioError)
  | haltTrap : RunAfter s (.trap 0x25#8) (.halted .haltTrap)
  | unimplementedTrap {v : BitVec 8} (hv : v.toNat < 0x20 ∨ 0x25 < v.toNat) :
      RunAfter s (.trap v) (.halted (.unimplementedTrap v))
  | rti : RunAfter s .rti (.halted (.unsupportedOpcode 0x8#4))
  | res : RunAfter s .res (.halted (.unsupportedOpcode 0xD#4))
  | getcWaits (h : s.nextAnswer = none) : RunAfter s (.trap 0x20#8) (.waiting .getc)
  | inWaits (h : s.nextAnswer = none) : RunAfter s (.trap 0x23#8) (.waiting .inEcho)
  | inString (k : StringService) : RunAfter s (.trap k.vector) (.writing k (s.reg 0#3))

/-- From `s` to `t` the run goes on, or it was stopped with IoError. -/
def GoesOnOrIoError (s t : State) : Prop := t.run = s.run ∨ t.run = .halted .ioError

theorem GoesOnOrIoError.after {s u t : State} (h : GoesOnOrIoError u t) (hu : u.run = s.run) : GoesOnOrIoError s t :=
  h.imp_left (·.trans hu)

theorem GoesOnOrIoError.runAfter {i : Instr} {s t : State} (h : GoesOnOrIoError s t) (hi : mayRaiseIoError i = true) :
    RunAfter s i t.run := by
  rcases h with h | h
  · exact .goesOn h
  · exact h ▸ .ioError hi

/-! ### Loads and stores -/

theorem loadWord_goesOnOrIoError (dr : Reg) (ea : Word) (s : State) :
    (loadWord dr ea s).Leaves (GoesOnOrIoError s) := by
  rcases loadWord_cases dr ea s with ⟨v, u, hread, hload⟩ | ⟨u, hread, hload⟩ <;> rw [hload]
  · exact .inl ((setReg_run u dr v).trans (memRead_done_run hread))
  · exact .inr (memRead_ended hread).2

theorem exec_ldi_goesOnOrIoError {dr : Reg} {off9 : BitVec 9} {s t : State} (h : exec (.ldi dr off9) s = .next t) :
    GoesOnOrIoError s t := by
  cases hm : memRead (s.pc + off9.signExtend 16) s with
  | done p u =>
    rw [exec_ldi_of_pointer hm] at h
    exact ((loadWord_goesOnOrIoError dr p u).outcome h).after (memRead_done_run hm)
  | ended u =>
    cases (exec_ldi_of_pointer_fails hm).symm.trans h
    exact .inr (memRead_ended hm).2

theorem exec_store_goesOnOrIoError {i : Instr} {sr : Reg} {s t : State} (hi : storedReg i = some sr)
    (h : exec i s = .next t) : GoesOnOrIoError s t := by
  rcases exec_store_cases hi h with ⟨ea, u, -, -, hu, rfl⟩ | ⟨-, -, hrun⟩
  · exact .inl hu
  · exact .inr hrun

/-! ### Services -/

/-- What can follow depends on the run state, the pending answer and R0 only. -/
theorem RunAfter.of_eq {i : Instr} {s u : State} {r : RunState} (h : RunAfter u i r) (hrun : u.run = s.run)
    (hanswer : u.nextAnswer = s.nextAnswer) (h0 : u.reg 0#3 = s.reg 0#3) : RunAfter s i r := by
  cases h with
  | goesOn hr => exact .goesOn (hr.trans hrun)
  | ioError hi => exact .ioError hi
  | haltTrap => exact .haltTrap
  | unimplementedTrap hv => exact .unimplementedTrap hv
  | rti => exact .rti
  | res => exact .res
  | getcWaits hnone => exact .getcWaits (hanswer ▸ hnone)
  | inWaits hnone => exact .inWaits (hanswer ▸ hnone)
  | inString k => exact h0 ▸ .inString k

theorem getc_runAfter (s : State) : (getc s).Leaves fun t => RunAfter s (.trap 0x20#8) t.run := by
  rcases h : s.nextAnswer with _ | (b | _)
  · rw [getc_none h]
    exact .getcWaits h
  · rw [getc_byte h]
    exact .goesOn (takeInput_run s)
  · rw [getc_fail h]
    exact .ioError rfl

theorem inAfterPrompt_runAfter (s : State) : (inAfterPrompt s).Leaves fun t => RunAfter s (.trap 0x23#8) t.run := by
  rcases h : s.nextAnswer with _ | (b | _)
  · rw [inAfterPrompt_none h]
    exact .inWaits h
  · cases hw : s.writeAnswer 0 with
    | ok =>
      rw [inAfterPrompt_byte h hw]
      exact .goesOn (takeInput_run s)
    | fail =>
      rw [inAfterPrompt_echo_fails h hw]
      exact .ioError rfl
  · rw [inAfterPrompt_fail h]
    exact .ioError rfl

theorem inService_runAfter (s : State) : (inService s).Leaves fun t => RunAfter s (.trap 0x23#8) t.run := by
  cases hw : s.writeAnswer 0 with
  | ok =>
    rw [inService_ok hw]
    exact (inAfterPrompt_runAfter _).mono fun _ h => h.of_eq rfl rfl rfl
  | fail =>
    rw [inService_fail hw]
    exact .ioError rfl

theorem halt_runAfter (s : State) : (halt s).Leaves fun t => RunAfter s (.trap 0x25#8) t.run := by
  cases hw : s.writeAnswer 0 with
  | ok =>
    rw [halt_ok hw]
    exact .haltTrap
  | fail =>
    rw [halt_fail hw]
    exact .ioError rfl

theorem mayRaiseIoError_string (k : StringService) : mayRaiseIoError (.trap k.vector) = true := by
  cases k <;> rfl

/-- A string that is not at its end after a whole pass stands where it began (`stringPass_wraps`). -/
theorem stringPass_runAfter (k : StringService) (s : State) :
    (stringLoop k stringPass (s.reg 0#3) s).Leaves fun t => RunAfter s (.trap k.vector) t.run := by
  refine (stringLoop_run k stringPass (s.reg 0#3) s).mono fun t h => ?_
  rw [stringPass_wraps] at h
  rcases h with h | h | h <;> rw [h]
  · exact .goesOn rfl
  · exact .ioError (mayRaiseIoError_string k)
  · exact .inString k

/-- A vector selects one of the six services or none (43_trap.md R181, R188). -/
theorem vector_cases (v : BitVec 8) : v = 0x20#8 ∨ v = 0x21#8 ∨ v = 0x22#8 ∨ v = 0x23#8 ∨ v = 0x24#8 ∨ v = 0x25#8 ∨
    v.toNat < 0x20 ∨ 0x25 < v.toNat := by
  bv_omega

theorem service_runAfter (vect : BitVec 8) (s : State) :
    (service vect s).Leaves fun t => RunAfter s (.trap vect) t.run := by
  rcases vector_cases vect with rfl | rfl | rfl | rfl | rfl | rfl | hv
  · exact getc_runAfter s
  · exact (emit_run _ s).mono fun _ h => GoesOnOrIoError.runAfter h rfl
  · exact stringPass_runAfter .puts s
  · exact inService_runAfter s
  · exact stringPass_runAfter .putsp s
  · exact halt_runAfter s
  · rw [service_unimplemented hv]
    exact .unimplementedTrap hv

/-! ### Instructions -/

/-- Every instruction answers a next state, in every state (R229). -/
theorem exec_next (i : Instr) (s : State) : ∃ t, exec i s = .next t := by
  cases i with
  | ld | ldi | ldr | sti | trap => exact Op.outcome_next _
  | addReg | addImm | andReg | andImm | not | lea | st | str | br | jmp | ret | jsr | jsrr | rti | res => exact ⟨_, rfl⟩

/-- Where the run stands after any instruction: a TRAP is its service after the link write, which changes nothing that
`RunAfter` depends on. -/
theorem exec_runAfter {i : Instr} {s t : State} (h : exec i s = .next t) : RunAfter s i t.run := by
  cases i with
  | addReg | addImm | andReg | andImm | not | lea | st | str | jmp | ret => cases h; exact .goesOn rfl
  | br n z p off9 =>
    rw [exec_br] at h
    cases h
    exact .goesOn rfl
  | jsr | jsrr =>
    cases h
    exact .goesOn (link_run s s.pc)
  | ld dr _ | ldr dr _ _ => exact ((loadWord_goesOnOrIoError dr _ s).outcome h).runAfter rfl
  | ldi => exact (exec_ldi_goesOnOrIoError h).runAfter rfl
  | sti => exact (exec_store_goesOnOrIoError rfl h).runAfter rfl
  | trap vect =>
    exact ((service_runAfter vect _).outcome h).of_eq (link_run s s.pc) (nextAnswer_link s s.pc)
      (reg_link s 0#3 s.pc)
  | rti => cases h; exact .rti
  | res => cases h; exact .res

theorem mayRaiseIoError_cases {i : Instr} (h : mayRaiseIoError i = true) :
    (∃ dr off9, i = .ld dr off9 ∨ i = .ldi dr off9 ∨ i = .sti dr off9) ∨ (∃ dr b off6, i = .ldr dr b off6) ∨
      ∃ v, i = .trap v ∧ 0x20 ≤ v.toNat ∧ v.toNat ≤ 0x25 := by
  cases i with
  | ld dr off9 => exact .inl ⟨dr, off9, .inl rfl⟩
  | ldi dr off9 => exact .inl ⟨dr, off9, .inr (.inl rfl)⟩
  | sti sr off9 => exact .inl ⟨sr, off9, .inr (.inr rfl)⟩
  | ldr dr b off6 => exact .inr (.inl ⟨dr, b, off6, rfl⟩)
  | trap v => exact .inr (.inr ⟨v, rfl, of_decide_eq_true h⟩)
  | _ => cases h

/-- Settles O60, by the run states an instruction can leave (`exec_runAfter`): from Running only a stop is Halted, and
each stop names its instructions. -/
theorem runsStopForTheListedReasonsOnly : Obligations.RunsStopForTheListedReasonsOnly := by
  unfold Obligations.RunsStopForTheListedReasonsOnly
  intro i s t r hrun h hr
  have stopped := exec_runAfter h
  rw [hr] at stopped
  cases stopped with
  | goesOn halted => cases halted.trans hrun
  | ioError hi => exact mayRaiseIoError_cases hi
  | haltTrap => rfl
  | unimplementedTrap hv => exact ⟨rfl, hv⟩
  | rti => exact .inl ⟨rfl, rfl⟩
  | res => exact .inr ⟨rfl, rfl⟩

/-! ## Strings that never end (R228; log 14) -/

theorem State.Unending.setRun {s : State} (h : s.Unending) (r : RunState) : ({ s with run := r } : State).Unending :=
  ⟨h.words, h.polls, h.keys, h.keyHeld, h.writes⟩

/-- A whole pass over an unending string ends inside it, at the address where it began, the output grown. -/
theorem stringLoop_pass_of_unending {s : State} (h : s.Unending) (k : StringService) (a : Word) :
    ∃ t, (stringLoop k stringPass a s).outcome = .next t ∧ t.run = .writing k a ∧ t.Unending ∧ t.pc = s.pc ∧
      s.output.length < t.output.length := by
  obtain ⟨t, ht, hrun, hun, hpc, hout⟩ := h.stringLoop k stringPass a
  rw [stringPass_wraps] at hrun
  have hpass : 0 < stringPass := by decide
  exact ⟨t, by rw [ht, Op.outcome_ended], hrun, hun, hpc, by omega⟩

/-- Settles O54: the next state is `exec_next`, its run state one of `exec_runAfter`; a string with no end goes on by
`stringLoop_pass_of_unending`, entered after the link write or from inside the string. -/
theorem everyInstructionCompletes : Obligations.EveryInstructionCompletes := by
  unfold Obligations.EveryInstructionCompletes
  refine ⟨fun i s => ?completes, fun k s hun => ?begins, fun k a s hrun hun => ?continues⟩
  case completes =>
    obtain ⟨t, ht⟩ := exec_next i s
    refine ⟨t, ht, ?_⟩
    have after := exec_runAfter ht
    generalize t.run = r at after ⊢
    cases after with
    | goesOn hr => exact .inl hr
    | ioError | haltTrap | unimplementedTrap | rti | res => exact .inr (.inl ⟨_, rfl⟩)
    | getcWaits hnone => exact .inr (.inr (.inl ⟨hnone, .inl ⟨rfl, rfl⟩⟩))
    | inWaits hnone => exact .inr (.inr (.inl ⟨hnone, .inr ⟨rfl, rfl⟩⟩))
    | inString k => exact .inr (.inr (.inr ⟨k, rfl, rfl⟩))
  case begins =>
    rw [exec_string]
    simpa only [link_pc, link_output] using stringLoop_pass_of_unending (hun.link s.pc) k (s.reg 0#3)
  case continues =>
    rw [step_writing hrun]
    exact stringLoop_pass_of_unending (hun.setRun .running) k a

end Sys2Proof.Machine

/-! # Reset and hazards: construction, the image load, and the fetch -/

namespace Sys2Proof.Machine

/-! ## Construction and the step before the run (70_reset_and_hazards.md R250, R252; log 11) -/

/-- Settles O1: the fields of `State.reset`, whose memory lists no cell. -/
theorem constructionSetsEveryRegisterAndWord : Obligations.ConstructionSetsEveryRegisterAndWord :=
  ⟨reg_reset, rfl, rfl, fun _ => rfl⟩

theorem step_notStarted {s : State} (hrun : s.run = .notStarted) : step s = start s := by
  simp only [step, hrun]

theorem start_presented {s : State} {img : ImageStream} (h : s.image = some img) : start s = .next (load img s) := by
  simp only [start, h]

theorem start_noImage {s : State} (h : s.image = none) : start s = .fault .noImage := by
  simp only [start, h]

/-- Settles O3: the step of NotStarted is `start`, which asks the image port. -/
theorem stepBeforeTheRunLoadsTheImage : Obligations.StepBeforeTheRunLoadsTheImage := by
  unfold Obligations.StepBeforeTheRunLoadsTheImage
  intro s hrun
  rw [step_notStarted hrun]
  exact ⟨fun _ => start_presented, start_noImage⟩

theorem step_imageError {s : State} (hrun : s.run = .imageError) : step s = .fault .imageError := by
  simp only [step, hrun]

/-! ## The loader, word by word (R252, R255) -/

/-- The words `ws` written to consecutive addresses from `a` on, modulo 2^16: what the loader does to memory
(`loadWords_imageBytes`). -/
def Memory.writeWords : Memory → Word → List Word → Memory
  | m, _, [] => m
  | m, a, w :: ws => Memory.writeWords (m.write a w) (a + 1#16) ws

/-- The loader writes the whole words of a stream and goes on with the bytes after them. -/
theorem loadWords_imageBytes (more : List Byte) (ws : List Word) (a : Word) (m : Memory) :
    loadWords a (imageBytes ws ++ more) m =
      loadWords (a + BitVec.ofNat 16 ws.length) more (m.writeWords a ws) := by
  induction ws generalizing a m with
  | nil => exact congrArg (loadWords · more m) (BitVec.add_zero a).symm
  | cons w ws ih => rw [loadWords_cons, ih, address_succ, Memory.writeWords, List.length_cons]

/-- The frame of the loader's writes (R255). -/
theorem Memory.read_writeWords_outside (ws : List Word) (m : Memory) (a b : Word)
    (h : ∀ i, i < ws.length → b ≠ a + BitVec.ofNat 16 i) : (m.writeWords a ws).read b = m.read b := by
  induction ws generalizing m a with
  | nil => rfl
  | cons w ws ih =>
    have hhead : b ≠ a := by simpa using h 0 (Nat.zero_lt_succ _)
    have htail : ∀ i, i < ws.length → b ≠ a + 1#16 + BitVec.ofNat 16 i := fun i hi =>
      address_succ a i ▸ h (i + 1) (Nat.succ_lt_succ hi)
    rw [Memory.writeWords, ih _ _ htail, Memory.read_write_other m w hhead]

/-- Fewer than 2^16 steps up from `a` never lead back to `a`. -/
theorem ne_address_succ (a : Word) {i : Nat} (h : i + 1 < 65536) : a ≠ a + 1#16 + BitVec.ofNat 16 i := by
  rw [address_succ]
  intro he
  have hzero : BitVec.ofNat 16 (i + 1) = 0#16 := left_eq_add.mp he
  have hmod : (i + 1) % 65536 = 0 := congrArg BitVec.toNat hzero
  omega

/-- Each word stands at its own address: at most 2^16 of them, so no later word overwrites it (R254, R255). -/
theorem Memory.read_writeWords (ws : List Word) (m : Memory) (a : Word) (hlen : ws.length ≤ 65536) {i : Nat}
    (h : i < ws.length) : (m.writeWords a ws).read (a + BitVec.ofNat 16 i) = ws[i] := by
  induction ws generalizing m a i with
  | nil => cases h
  | cons w ws ih =>
    have hlen' : ws.length + 1 ≤ 65536 := hlen
    rw [Memory.writeWords]
    cases i with
    | zero =>
      have hclear : ∀ j, j < ws.length → a ≠ a + 1#16 + BitVec.ofNat 16 j := fun j hj =>
        ne_address_succ a (by omega)
      rw [BitVec.add_zero, Memory.read_writeWords_outside _ _ _ _ hclear, Memory.read_write_same]
      rfl
    | succ i => rw [← address_succ a i, ih _ _ (by omega) (Nat.lt_of_succ_lt_succ h), List.getElem_cons_succ]

/-! ## The load of an image (R252, R253) -/

/-- The first word of the stream is the origin, where PC is set and the loader begins (R251, R252). -/
theorem load_imageBytes (origin : Word) (ws : List Word) (more : List Byte) (s : State) :
    load (.bytes (imageBytes (origin :: ws) ++ more)) s =
      { s with
        pc := origin
        mem := (loadWords origin (imageBytes ws ++ more) s.mem).1
        image := none
        run := if (loadWords origin (imageBytes ws ++ more) s.mem).2 then .running else .imageError } := by
  show load (.bytes (highByte origin :: lowByte origin :: (imageBytes ws ++ more))) s = _
  simp only [load, wordOfBytes_bytes]

/-- With no byte left after the words, the load succeeds (R252). -/
theorem load_words (origin : Word) (ws : List Word) (s : State) :
    load (.bytes (imageBytes (origin :: ws))) s =
      { s with pc := origin, mem := s.mem.writeWords origin ws, image := none, run := .running } := by
  rw [← List.append_nil (imageBytes (origin :: ws)), load_imageBytes, loadWords_imageBytes]
  rfl

/-- A byte after the whole words makes the load fail (R253, D14); the words before it stay written (log 12). -/
theorem load_odd (origin : Word) (ws : List Word) (b : Byte) (s : State) :
    load (.bytes (imageBytes (origin :: ws) ++ [b])) s =
      { s with pc := origin, mem := s.mem.writeWords origin ws, image := none, run := .imageError } := by
  rw [load_imageBytes, loadWords_imageBytes]
  rfl

/-- Settles O52: the load is `load_words`, and the words written from the origin on read back. -/
theorem loadPlacesTheImage : Obligations.LoadPlacesTheImage := by
  unfold Obligations.LoadPlacesTheImage
  intro origin ws s hlen
  rw [load_words]
  exact ⟨rfl, rfl, fun i h => Memory.read_writeWords ws s.mem origin hlen h,
    fun a h => Memory.read_writeWords_outside ws s.mem origin a h, rfl, rfl⟩

/-- Settles O53: each bad image ends the load in the image error, and from there a step is the fault. -/
theorem badImageNeverStarts : Obligations.BadImageNeverStarts := by
  unfold Obligations.BadImageNeverStarts
  intro s img bad
  have hrun : (load img s).run = .imageError := by
    rcases bad with rfl | rfl | ⟨b, rfl⟩ | ⟨origin, ws, b, rfl⟩
    · rfl
    · rfl
    · rfl
    · rw [load_odd]
  exact ⟨hrun, step_imageError hrun⟩

/-! ## The fetch (R260, R261; 92_eei_decisions.md D21) -/

/-- A word read without a poll is executed at PC + 1. -/
theorem step_at_plain {s : State} (hrun : s.run = .running) (hcfg : s.cfg.canonicalOnly = false)
    (hpc : s.pc ≠ kbsrAddr) : step s = exec (decode (s.mem.read s.pc)) { s with pc := s.pc + 1#16 } :=
  fetchThenIncrementThenExecute s s _ hrun hcfg (memRead_plain hpc s)

/-- Away from 0xFE00 the word goes to PC itself, its bits above the sixteenth dropped (log 11). -/
theorem withFetchWord_plain {s : State} (hpc : s.pc ≠ kbsrAddr) (w : Nat) :
    s.withFetchWord 16 w = { memWrite s.pc (BitVec.ofNat 16 w) s with run := .running } := by
  have hbits : BitVec.ofNat 16 (w % 2 ^ 16) = BitVec.ofNat 16 w := BitVec.eq_of_toNat_eq (by simp)
  simp only [State.withFetchWord, placeWord, if_neg hpc, hbits]

/-- Settles O7: a plain read at PC gives the stored word, and the word `withFetchWord` places is the one stored there. -/
theorem stepRunsTheDecodedInstruction : Obligations.StepRunsTheDecodedInstruction := by
  unfold Obligations.StepRunsTheDecodedInstruction
  refine ⟨fun s i hrun hcfg hpc _ hdecode => ?stored, fun s w hcfg hpc => ?placed⟩
  case stored => rw [step_at_plain hrun hcfg hpc, hdecode]
  case placed =>
    rw [withFetchWord_plain hpc]
    refine (step_at_plain (s := { memWrite s.pc _ s with run := .running }) rfl hcfg hpc).trans ?_
    simp only [memWrite_mem, memWrite_pc, Memory.read_write_same]

/-- A fetch that ends the step ends it before the increment (R261). -/
theorem step_of_memRead_ended {s t : State} (hrun : s.run = .running) (hm : memRead s.pc s = .ended t) :
    step s = .next t := by
  have hf : fetch s = .ended t := by simp [fetch, hm]
  simp only [step, hrun, hf]

/-- Settles O8: the failing poll ends the read at PC, and a read leaves PC, the registers and COND. -/
theorem failedFetchStopsBeforeTheIncrement : Obligations.FailedFetchStopsBeforeTheIncrement := by
  unfold Obligations.FailedFetchStopsBeforeTheIncrement
  intro s hrun hpc hpoll hfail
  have hm := memRead_kbsr_fail hpoll hfail
  have read := memRead_ended_portFrame hm
  exact ⟨_, step_of_memRead_ended hrun (hpc ▸ hm), rfl, read.pc.trans hpc, read.reg, read.cond⟩

end Sys2Proof.Machine
